-- ==== Sys2Proof/Word.lean ====
section
/-! DEFINITION. The widths of the machine's values (spec/00_scope.md R7, R11): what a byte, an instruction word, a
12-bit address and a 4-bit field are, and the index of a general register. -/

namespace Sys2Proof

/-- A general register, a memory byte, a timer or an immediate byte: 8 bits (R7). -/
abbrev Byte := BitVec 8

/-- A 4-bit field of an instruction word (R71). -/
abbrev Nibble := BitVec 4

/-- A 12-bit address field `NNN` (R71). -/
abbrev Addr := BitVec 12

/-- An instruction word, `pc`, `I`, `current_opcode` and a stack entry: 16 bits (R7). -/
abbrev Word := BitVec 16

/-- The index of a general register, 0 to 15: every value of a 4-bit register field names one (R8, R21, R72). -/
abbrev Reg := Fin 16

end Sys2Proof
end

