-- ==== Sys2Proof/Syntax.lean ====
section
/-! DEFINITION. The instructions: one constructor for each of the 35 rows of spec/opcode_table.json
(spec/30_encoding.md R74), with the fields the row names as operands. A field the hardware does not examine (`n` of
5XYn and 9XYn, `y` of 8XY6 and 8XYE) is an operand too, so that an instruction stands for exactly one word. -/

namespace Sys2Proof

/-- The instructions of CHIP-8 (classic), in the order of the opcode map (R74). -/
inductive Instr where
  /-- `00E0` CLS (R101). -/
  | cls
  /-- `00EE` RET (R102). -/
  | ret
  /-- `0NNN` SYS NNN, any other word of family 0 (R75, R100). -/
  | sys (nnn : Addr)
  /-- `1NNN` JP NNN (R103). -/
  | jp (nnn : Addr)
  /-- `2NNN` CALL NNN (R104). -/
  | call (nnn : Addr)
  /-- `3XNN` SE VX, NN (R120). -/
  | seImm (x : Reg) (nn : Byte)
  /-- `4XNN` SNE VX, NN (R121). -/
  | sneImm (x : Reg) (nn : Byte)
  /-- `5XYn` SE VX, VY; `n` is not examined (R76, R122). -/
  | seReg (x y : Reg) (n : Nibble)
  /-- `6XNN` LD VX, NN (R130). -/
  | ldImm (x : Reg) (nn : Byte)
  /-- `7XNN` ADD VX, NN (R131). -/
  | addImm (x : Reg) (nn : Byte)
  /-- `8XY0` LD VX, VY (R132). -/
  | ldReg (x y : Reg)
  /-- `8XY1` OR VX, VY (R133). -/
  | orReg (x y : Reg)
  /-- `8XY2` AND VX, VY (R134). -/
  | andReg (x y : Reg)
  /-- `8XY3` XOR VX, VY (R135). -/
  | xorReg (x y : Reg)
  /-- `8XY4` ADD VX, VY (R136). -/
  | addReg (x y : Reg)
  /-- `8XY5` SUB VX, VY (R137). -/
  | subReg (x y : Reg)
  /-- `8XY6` SHR VX; `y` is not read (R138). -/
  | shr (x y : Reg)
  /-- `8XY7` SUBN VX, VY (R139). -/
  | subnReg (x y : Reg)
  /-- `8XYE` SHL VX; `y` is not read (R140). -/
  | shl (x y : Reg)
  /-- `9XYn` SNE VX, VY; `n` is not examined (R76, R123). -/
  | sneReg (x y : Reg) (n : Nibble)
  /-- `ANNN` LD I, NNN (R150). -/
  | ldI (nnn : Addr)
  /-- `BNNN` JP V0, NNN (R151). -/
  | jpV0 (nnn : Addr)
  /-- `CXNN` RND VX, NN (R152). -/
  | rnd (x : Reg) (nn : Byte)
  /-- `DXYN` DRW VX, VY, N (R162). -/
  | drw (x y : Reg) (n : Nibble)
  /-- `EX9E` SKP VX (R170). -/
  | skp (x : Reg)
  /-- `EXA1` SKNP VX (R171). -/
  | sknp (x : Reg)
  /-- `FX07` LD VX, DT (R180). -/
  | ldVxDt (x : Reg)
  /-- `FX0A` LD VX, K (R181). -/
  | ldVxK (x : Reg)
  /-- `FX15` LD DT, VX (R182). -/
  | ldDtVx (x : Reg)
  /-- `FX18` LD ST, VX (R183). -/
  | ldStVx (x : Reg)
  /-- `FX1E` ADD I, VX (R184). -/
  | addI (x : Reg)
  /-- `FX29` LD F, VX (R185). -/
  | ldF (x : Reg)
  /-- `FX33` LD B, VX (R186). -/
  | ldB (x : Reg)
  /-- `FX55` LD [I], VX (R187). -/
  | storeRegs (x : Reg)
  /-- `FX65` LD VX, [I] (R188). -/
  | loadRegs (x : Reg)
  deriving DecidableEq, Repr

end Sys2Proof
end

