-- ==== Sys2Proof/Decode.lean ====
section
/-! DEFINITION. The decoder and, after it, the encoder, both written from the opcode map of spec/30_encoding.md R74:
a word matches a row when its masked bits equal the row's pattern, and the first matching row decides (R75). A word no
row matches is rejected by name (R80). Bytes are taken big-endian (spec/20_memory.md R54). -/

namespace Sys2Proof

/-! ### The fields of a word (R71) -/

/-- `F`, bits 15:12: the family. -/
def fieldF (w : Word) : Nibble := w.extractLsb' 12 4

/-- `X`, bits 11:8: the first register. -/
def fieldX (w : Word) : Reg := (w.extractLsb' 8 4).toFin

/-- `Y`, bits 7:4: the second register. -/
def fieldY (w : Word) : Reg := (w.extractLsb' 4 4).toFin

/-- `N`, bits 3:0. -/
def fieldN (w : Word) : Nibble := w.extractLsb' 0 4

/-- `NN`, bits 7:0. -/
def fieldNN (w : Word) : Byte := w.extractLsb' 0 8

/-- `NNN`, bits 11:0. -/
def fieldNNN (w : Word) : Addr := w.extractLsb' 0 12

/-! ### The opcode map (R74) -/

/-- One row of the opcode map: the bits that are fixed, their values, and the instruction of a matching word. -/
structure Row where
  mask : Word
  pattern : Word
  build : Word → Instr

/-- The row matches the word: `(w & mask) == match` (R74). -/
def Row.matchesWord (r : Row) (w : Word) : Bool := (w &&& r.mask) == r.pattern

/-- Families 0x0 to 0x2; the two whole words stand first (R75). -/
def rowsFlow : List Row :=
  [ ⟨0xFFFF, 0x00E0, fun _ => .cls⟩,
    ⟨0xFFFF, 0x00EE, fun _ => .ret⟩,
    ⟨0xF000, 0x0000, fun w => .sys (fieldNNN w)⟩,
    ⟨0xF000, 0x1000, fun w => .jp (fieldNNN w)⟩,
    ⟨0xF000, 0x2000, fun w => .call (fieldNNN w)⟩ ]

/-- Families 0x3 to 0x7. -/
def rowsImm : List Row :=
  [ ⟨0xF000, 0x3000, fun w => .seImm (fieldX w) (fieldNN w)⟩,
    ⟨0xF000, 0x4000, fun w => .sneImm (fieldX w) (fieldNN w)⟩,
    ⟨0xF000, 0x5000, fun w => .seReg (fieldX w) (fieldY w) (fieldN w)⟩,
    ⟨0xF000, 0x6000, fun w => .ldImm (fieldX w) (fieldNN w)⟩,
    ⟨0xF000, 0x7000, fun w => .addImm (fieldX w) (fieldNN w)⟩ ]

/-- Family 0x8 (R77). -/
def rowsAlu : List Row :=
  [ ⟨0xF00F, 0x8000, fun w => .ldReg (fieldX w) (fieldY w)⟩,
    ⟨0xF00F, 0x8001, fun w => .orReg (fieldX w) (fieldY w)⟩,
    ⟨0xF00F, 0x8002, fun w => .andReg (fieldX w) (fieldY w)⟩,
    ⟨0xF00F, 0x8003, fun w => .xorReg (fieldX w) (fieldY w)⟩,
    ⟨0xF00F, 0x8004, fun w => .addReg (fieldX w) (fieldY w)⟩,
    ⟨0xF00F, 0x8005, fun w => .subReg (fieldX w) (fieldY w)⟩,
    ⟨0xF00F, 0x8006, fun w => .shr (fieldX w) (fieldY w)⟩,
    ⟨0xF00F, 0x8007, fun w => .subnReg (fieldX w) (fieldY w)⟩,
    ⟨0xF00F, 0x800E, fun w => .shl (fieldX w) (fieldY w)⟩ ]

/-- Families 0x9 to 0xD. -/
def rowsIndex : List Row :=
  [ ⟨0xF000, 0x9000, fun w => .sneReg (fieldX w) (fieldY w) (fieldN w)⟩,
    ⟨0xF000, 0xA000, fun w => .ldI (fieldNNN w)⟩,
    ⟨0xF000, 0xB000, fun w => .jpV0 (fieldNNN w)⟩,
    ⟨0xF000, 0xC000, fun w => .rnd (fieldX w) (fieldNN w)⟩,
    ⟨0xF000, 0xD000, fun w => .drw (fieldX w) (fieldY w) (fieldN w)⟩ ]

/-- Families 0xE and 0xF (R78, R79). -/
def rowsKeysAndF : List Row :=
  [ ⟨0xF0FF, 0xE09E, fun w => .skp (fieldX w)⟩,
    ⟨0xF0FF, 0xE0A1, fun w => .sknp (fieldX w)⟩,
    ⟨0xF0FF, 0xF007, fun w => .ldVxDt (fieldX w)⟩,
    ⟨0xF0FF, 0xF00A, fun w => .ldVxK (fieldX w)⟩,
    ⟨0xF0FF, 0xF015, fun w => .ldDtVx (fieldX w)⟩,
    ⟨0xF0FF, 0xF018, fun w => .ldStVx (fieldX w)⟩,
    ⟨0xF0FF, 0xF01E, fun w => .addI (fieldX w)⟩,
    ⟨0xF0FF, 0xF029, fun w => .ldF (fieldX w)⟩,
    ⟨0xF0FF, 0xF033, fun w => .ldB (fieldX w)⟩,
    ⟨0xF0FF, 0xF055, fun w => .storeRegs (fieldX w)⟩,
    ⟨0xF0FF, 0xF065, fun w => .loadRegs (fieldX w)⟩ ]

/-- The opcode map of R74, its 35 rows in the order of the table. -/
def opcodeMap : List Row := rowsFlow ++ rowsImm ++ rowsAlu ++ rowsIndex ++ rowsKeysAndF

/-! ### The decoder -/

/-- Why bytes are no instruction (R80). -/
inductive Illegal where
  /-- Family 0x8 with a low nibble other than 0 to 7 and E (R77). -/
  | family8 (n : Nibble)
  /-- Family 0xE with a low byte other than 9E and A1 (R78). -/
  | familyE (nn : Byte)
  /-- Family 0xF with a low byte that names none of its nine rows (R79). -/
  | familyF (nn : Byte)
  /-- Fewer than the two bytes of an instruction (R70). No fetched word is this. -/
  | truncated
  deriving DecidableEq, Repr

/-- The name of the rejection of a word that matches no row (R77, R78, R79). -/
def rejection (w : Word) : Illegal :=
  if fieldF w = 0x8 then .family8 (fieldN w)
  else if fieldF w = 0xE then .familyE (fieldNN w)
  else .familyF (fieldNN w)

/-- Decode one instruction word: the first row that matches, or a rejection by name (R74, R75, R80, R85). -/
def decodeWord (w : Word) : Except Illegal Instr :=
  match opcodeMap.find? (fun r => r.matchesWord w) with
  | some r => .ok (r.build w)
  | none => .error (rejection w)

/-- The word of two bytes: the first is the high byte (R54). -/
def joinBytes (hi lo : Byte) : Word := hi ++ lo

/-- The two bytes of a word as memory holds them: the high byte first (R54). -/
def wordBytes (w : Word) : List Byte := [w.extractLsb' 8 8, w.extractLsb' 0 8]

/-- Decode the instruction at the head of some bytes and give the bytes after it. -/
def decodeBytes : List Byte → Except Illegal (Instr × List Byte)
  | hi :: lo :: rest =>
    match decodeWord (joinBytes hi lo) with
    | .ok i => .ok (i, rest)
    | .error e => .error e
  | _ => .error .truncated

/-- The instruction word whose low `nbits` bits are those of `w`, and whose other bits are 0: this hardware has one
word an instruction, so spec/opcode_table.json numbers its bits as R9 does. -/
def tableWord (nbits w : Nat) : Word := BitVec.ofNat 16 (w % 2 ^ nbits)

/-- What the decoder reads from an instruction whose bits are `w`, laid out as the hardware stores them. -/
def decodeTableWord (nbits w : Nat) : Option Instr :=
  match decodeBytes (wordBytes (tableWord nbits w)) with
  | .ok (i, _) => some i
  | .error _ => none

/-! ### The encoder -/

/-- The 4-bit field that names a register (R72). -/
def regField (x : Reg) : Nibble := BitVec.ofFin x

/-- A word of the fields `F`, `X`, `Y`, `N` (R71). -/
def wordXYN (f : Nibble) (x y : Reg) (n : Nibble) : Word := f ++ regField x ++ regField y ++ n

/-- A word of the fields `F`, `X`, `NN` (R71). -/
def wordXNN (f : Nibble) (x : Reg) (nn : Byte) : Word := f ++ regField x ++ nn

/-- A word of the fields `F`, `NNN` (R71). -/
def wordNNN (f : Nibble) (nnn : Addr) : Word := f ++ nnn

/-- The word of an instruction (R74). -/
def encode : Instr → Word
  | .cls => 0x00E0
  | .ret => 0x00EE
  | .sys nnn => wordNNN 0x0 nnn
  | .jp nnn => wordNNN 0x1 nnn
  | .call nnn => wordNNN 0x2 nnn
  | .seImm x nn => wordXNN 0x3 x nn
  | .sneImm x nn => wordXNN 0x4 x nn
  | .seReg x y n => wordXYN 0x5 x y n
  | .ldImm x nn => wordXNN 0x6 x nn
  | .addImm x nn => wordXNN 0x7 x nn
  | .ldReg x y => wordXYN 0x8 x y 0x0
  | .orReg x y => wordXYN 0x8 x y 0x1
  | .andReg x y => wordXYN 0x8 x y 0x2
  | .xorReg x y => wordXYN 0x8 x y 0x3
  | .addReg x y => wordXYN 0x8 x y 0x4
  | .subReg x y => wordXYN 0x8 x y 0x5
  | .shr x y => wordXYN 0x8 x y 0x6
  | .subnReg x y => wordXYN 0x8 x y 0x7
  | .shl x y => wordXYN 0x8 x y 0xE
  | .sneReg x y n => wordXYN 0x9 x y n
  | .ldI nnn => wordNNN 0xA nnn
  | .jpV0 nnn => wordNNN 0xB nnn
  | .rnd x nn => wordXNN 0xC x nn
  | .drw x y n => wordXYN 0xD x y n
  | .skp x => wordXNN 0xE x 0x9E
  | .sknp x => wordXNN 0xE x 0xA1
  | .ldVxDt x => wordXNN 0xF x 0x07
  | .ldVxK x => wordXNN 0xF x 0x0A
  | .ldDtVx x => wordXNN 0xF x 0x15
  | .ldStVx x => wordXNN 0xF x 0x18
  | .addI x => wordXNN 0xF x 0x1E
  | .ldF x => wordXNN 0xF x 0x29
  | .ldB x => wordXNN 0xF x 0x33
  | .storeRegs x => wordXNN 0xF x 0x55
  | .loadRegs x => wordXNN 0xF x 0x65

/-- The bytes of an instruction as memory holds them (R54). -/
def encodeBytes (i : Instr) : List Byte := wordBytes (encode i)

end Sys2Proof
end

