-- ==== Sys2Proof/Config.lean ====
section
/-! DEFINITION. What is fixed for this hardware: the sizes of spec/00_scope.md R6 at their canonical values, and the one
free value of the model, the random byte of a step (spec/60_exceptions.md R216). -/

namespace Sys2Proof.Config

/-- `MEM_SIZE` (R6): bytes of memory. -/
abbrev memSize : Nat := 4096

/-- `FLAG` (R6): the index of the flag register `VF`. -/
abbrev flagReg : Reg := 15

/-- `STACK_DEPTH` (R6): entries of the return stack. -/
abbrev stackDepth : Nat := 16

/-- `DISP_W` (R6): columns of the display. -/
abbrev dispW : Nat := 64

/-- `DISP_H` (R6): rows of the display. -/
abbrev dispH : Nat := 32

/-- `NKEYS` (R6): keys of the keypad. -/
abbrev numKeys : Nat := 16

/-- `PROG_START` (R6): where `load` puts the image, and `pc` after reset. -/
abbrev progStart : Nat := 0x200

/-- `FONT_BASE` (R6): the address of the font table. -/
abbrev fontBase : Nat := 0

/-- `FONT_GLYPH` (R6): bytes of one glyph. -/
abbrev fontGlyph : Nat := 5

/-- FREE VALUE (R216, 92_eei_decisions.md D15; log entry 5): the random byte of the `n`-th draw. It has no body: any of
the 256 values may be drawn, under no law, so a claim about a draw holds whatever this is. -/
opaque randByte : Nat → Byte

end Sys2Proof.Config
end

