-- ==== Sys2Proof/Machine/State.lean ====
section
/-! DEFINITION. What the machine holds (spec/10_state.md R20), how a step ends (spec/60_exceptions.md R200), and the
state after reset (spec/10_state.md R38). -/

namespace Sys2Proof.Machine

/-- Memory as the bytes that differ from their reset contents, by rising address (log entry 2). -/
abbrev Memory := List Host.Cell

/-- The display: 32 rows of 64 cells, row 0 first, column 0 first in its row (R28). -/
abbrev Display := Vector (Vector Bool 64) 32

/-- The fatal errors of a step (spec/60_exceptions.md R203 to R207). A meaning raises one through `raiseFatal`, which
answers a NEXT state whose status records it, because the spec gives the error its effect and the machine goes on
(log entry 4). No step ends in `Outcome.fault`. All four are safe: nothing but the report and `current_opcode` changes. -/
inductive Fault where
  /-- CALL with the stack full; the `pc` of the call (R204). Raised by `execCall`. Safe. -/
  | stackOverflow (pc : Word)
  /-- RET with the stack empty; the `pc` of the return (R205). Raised by `execRet`. Safe. -/
  | stackUnderflow (pc : Word)
  /-- An access at or above `MEM_SIZE`: its first such address, and the `pc` (R206). Raised by the fetch, `execDrw`,
  `execLdB`, `execStoreRegs` and `execLoadRegs`. Safe. -/
  | outOfRangeAddress (address : Nat) (pc : Word)
  /-- A key value of 16 or more, and the `pc` (R207). Raised by `execSkp` and `execSknp`. Safe. -/
  | outOfRangeOperand (value : Byte) (pc : Word)
  deriving DecidableEq, Repr

/-- Why the model gives an instruction no meaning. -/
inductive Refusal where
  /-- An instruction without a meaning, refused in `exec`'s own arm. No arm uses it: every instruction has its
  meaning. Safe: a run that met it would stop. -/
  | notModelled (mnemonic : String)
  deriving DecidableEq, Repr

/-- How a call of `step()` ended (spec/60_exceptions.md R200). -/
inductive Status where
  /-- The instruction completed normally. -/
  | ok
  /-- FX0A found no key pressed (R215). -/
  | waiting
  /-- The word is no instruction, or SYS: a completed step that reports it (R202). -/
  | decodeError (w : Word)
  /-- The step was rolled back (R203). -/
  | fatal (f : Fault)
  deriving DecidableEq, Repr

/-- The machine: the fields of R20 in its order, then the result of the last step (R200, log entry 3) and the count of
random draws (R216, log entry 5), which are the model's own. -/
structure State where
  /-- `memory` (spec/20_memory.md R50). -/
  mem : Memory
  /-- `V[0]` to `V[15]` (R21). -/
  v : Vector Byte 16
  /-- `I` (R23). -/
  i : Word
  /-- `pc` (R24). -/
  pc : Word
  /-- `Stack[0]` to `Stack[15]` (R26). -/
  stack : Vector Word 16
  /-- `SP`, 0 to 16 (R26). -/
  sp : Fin 17
  /-- `Disp` (R28). -/
  disp : Display
  /-- `draw_flag` (R29). -/
  drawFlag : Bool
  /-- `Key[0]` to `Key[15]`, the host's snapshot (R30). -/
  key : Vector Bool 16
  /-- `DT` (R31). -/
  dt : Byte
  /-- `ST` (R32). -/
  st : Byte
  /-- `current_opcode` (R33). -/
  currentOpcode : Word
  /-- The status the last step returned (R200); the model's own field. -/
  status : Status
  /-- The beep the last step returned (R200, R213); the model's own field. -/
  beep : Bool
  /-- How many random bytes have been drawn (R216); the model's own field. -/
  draws : Nat
  deriving DecidableEq, Repr

/-- The state after reset (R38, spec/70_reset_and_hazards.md R240). Memory lists nothing: every byte reads as its reset
contents. `status`, `beep` and `draws` are DESIGN CHOICE (log entries 3 and 5). -/
def State.reset : State where
  mem := []
  v := Vector.replicate 16 0
  i := 0
  pc := 0x200
  stack := Vector.replicate 16 0
  sp := 0
  disp := Vector.replicate 32 (Vector.replicate 64 false)
  drawFlag := false
  key := Vector.replicate 16 false
  dt := 0
  st := 0
  currentOpcode := 0
  status := .ok
  beep := false
  draws := 0

end Sys2Proof.Machine
end

