-- ==== Sys2Proof/Machine/Flags.lean ====
section
/-! DEFINITION. The values the flag register takes (spec/10_state.md R22): each is computed from the operands as they
were before the instruction wrote anything (spec/10_state.md R39). -/

namespace Sys2Proof.Machine

/-- A flag as the byte `VF` holds: 1 or 0. -/
def flagByte (b : Bool) : Byte := if b then 1 else 0

/-- Carry of 8XY4: `b > 255 - a` (R136). -/
def carryOf (a b : Byte) : Bool := decide (b.toNat > 255 - a.toNat)

/-- Not-borrow of `a - b`: 0 when `b > a` (R137, R139). -/
def notBorrowOf (a b : Byte) : Bool := !decide (b.toNat > a.toNat)

/-- The bit that 8XY6 shifts out (R138). -/
def lowBit (a : Byte) : Bool := a.getLsbD 0

/-- The bit that 8XYE shifts out (R140). -/
def highBit (a : Byte) : Bool := a.getLsbD 7

/-- Overflow of FX1E: the sum passes 0xFFF (R184). -/
def indexOverflow (sum : Nat) : Bool := decide (sum > 0x0FFF)

end Sys2Proof.Machine
end

