-- ==== Sys2Proof/Machine/Operands.lean ====
section
/-! DEFINITION. What an instruction's operand fields stand for (spec/30_encoding.md R73) and how the values it computes
with are formed: targets, glyph addresses, decimal digits, sprite pixels. -/

namespace Sys2Proof.Machine

/-- Every index of a general register, lowest first. -/
def allRegs : List Reg := [0, 1, 2, 3, 4, 5, 6, 7, 8, 9, 10, 11, 12, 13, 14, 15]

/-- `NNN` as a 16-bit address, zero-extended (R73). -/
def addrOperand (nnn : Addr) : Word := nnn.setWidth 16

/-- The target of BNNN: the 16-bit sum, not masked (R151). -/
def indexedTarget (nnn : Addr) (v0 : Byte) : Word := addrOperand nnn + v0.setWidth 16

/-- The word of a SYS instruction, family 0 with its `NNN` (R75, R100). -/
def sysWord (nnn : Addr) : Word := addrOperand nnn

/-- The address of the glyph that the low nibble of a byte names (R185). -/
def glyphAddress (b : Byte) : Word :=
  BitVec.ofNat 16 (Config.fontBase + (b &&& 0x0F).toNat * Config.fontGlyph)

/-- The sum of FX1E on unbounded naturals (R184). -/
def indexSum (i : Word) (b : Byte) : Nat := i.toNat + b.toNat

/-- The low 12 bits of a sum, as `I` takes them in FX1E (R184). -/
def wrap12 (n : Nat) : Word := BitVec.ofNat 16 n &&& 0x0FFF

/-- Hundreds, tens and ones of a byte (R186). -/
def bcdDigits (b : Byte) : List Byte :=
  [BitVec.ofNat 8 (b.toNat / 100), BitVec.ofNat 8 (b.toNat / 10 % 10), BitVec.ofNat 8 (b.toNat % 10)]

/-- Column `c` of a sprite row: bit `7 - c` of its byte (R160). -/
def spriteBit (row : Byte) (c : Nat) : Bool := row.getLsbD (7 - c)

/-- The display column of sprite column `c` (R161). -/
def pixelColumn (x0 : Byte) (c : Nat) : Fin 64 :=
  ⟨(x0.toNat + c) % Config.dispW, Nat.mod_lt _ (by decide)⟩

/-- The display row of sprite row `r` (R161). -/
def pixelRow (y0 : Byte) (r : Nat) : Fin 32 :=
  ⟨(y0.toNat + r) % Config.dispH, Nat.mod_lt _ (by decide)⟩

/-- The lowest pressed key of a snapshot (R181). -/
def lowestKey (key : Vector Bool 16) : Option (Fin 16) := allRegs.find? (fun k => key[k])

/-- The index of a key as the byte FX0A stores (R181). -/
def keyIndex (k : Fin 16) : Byte := BitVec.ofNat 8 k.val

end Sys2Proof.Machine
end

