-- ==== Sys2Proof/Machine/Ops.lean ====
section
/-! DEFINITION. The operations the meanings share: memory and its bounds check (spec/20_memory.md), the registers, the
stack and the display (spec/10_state.md), the program-counter policy (spec/30_encoding.md R90), raising a fatal error and
reporting a decode error (spec/60_exceptions.md R202, R203), and what a step does around an instruction
(spec/30_encoding.md R86): fetch, `current_opcode`, the timer tick. -/

namespace Sys2Proof.Machine

/-! ### Memory contents -/

/-- The 80 font bytes, glyph 0 first (spec/20_memory.md R60). PRESUMED by the spec itself (D2, log entry 1). -/
def fontTable : List Byte :=
  [ 0xF0, 0x90, 0x90, 0x90, 0xF0,  0x20, 0x60, 0x20, 0x20, 0x70,
    0xF0, 0x10, 0xF0, 0x80, 0xF0,  0xF0, 0x10, 0xF0, 0x10, 0xF0 ] ++
  [ 0x90, 0x90, 0xF0, 0x10, 0x10,  0xF0, 0x80, 0xF0, 0x10, 0xF0,
    0xF0, 0x80, 0xF0, 0x90, 0xF0,  0xF0, 0x10, 0x20, 0x40, 0x40 ] ++
  [ 0xF0, 0x90, 0xF0, 0x90, 0xF0,  0xF0, 0x90, 0xF0, 0x10, 0xF0,
    0xF0, 0x90, 0xF0, 0x90, 0x90,  0xE0, 0x90, 0xE0, 0x90, 0xE0 ] ++
  [ 0xF0, 0x80, 0x80, 0x80, 0xF0,  0xE0, 0x90, 0x90, 0x90, 0xE0,
    0xF0, 0x80, 0xF0, 0x80, 0xF0,  0xF0, 0x80, 0xF0, 0x80, 0x80 ]

/-- What an unlisted address reads as: its reset contents, the font table from `FONT_BASE` and zero above it
(spec/10_state.md R38, spec/20_memory.md R59). -/
def blankByte (a : Nat) : Byte := fontTable.getD (a - Config.fontBase) 0

/-- The byte at an address. Only addresses below `MEM_SIZE` are ever read: the access operations below check first. -/
def Memory.read : Memory → Nat → Byte
  | [], a => blankByte a
  | c :: rest, a => if a = c.1 then c.2 else Memory.read rest a

/-- Put a cell before the first cell with a higher address. -/
def Memory.insertCell : Memory → Host.Cell → Memory
  | [], c => [c]
  | d :: rest, c => if c.1 < d.1 then c :: d :: rest else d :: Memory.insertCell rest c

/-- Store a byte, in canonical form: the old entry goes, and a new one stands only where the byte differs from what the
unlisted address reads as. -/
def Memory.write (m : Memory) (a : Nat) (b : Byte) : Memory :=
  let others := m.filter (fun c => c.1 != a)
  if b = blankByte a then others else Memory.insertCell others (a, b)

/-- Store bytes at consecutive addresses, lowest first. -/
def Memory.writeList : Memory → Nat → List Byte → Memory
  | m, _, [] => m
  | m, a, b :: rest => Memory.writeList (m.write a b) (a + 1) rest

/-- Read bytes at consecutive addresses, lowest first. -/
def Memory.readList (m : Memory) (a n : Nat) : List Byte := (List.range n).map (fun k => m.read (a + k))

/-- The canonical form: addresses strictly rising and inside memory, no entry that says what the unlisted address
would. -/
abbrev Memory.wf (m : Memory) : Prop :=
  m.Pairwise (fun c d => c.1 < d.1) ∧ ∀ c ∈ m, c.1 < Config.memSize ∧ c.2 ≠ blankByte c.1

/-! ### Single-field updates -/

/-- `V[k] <- b`. -/
def State.setReg (s : State) (k : Reg) (b : Byte) : State := { s with v := s.v.set k b }

/-- Every general register at once. -/
def State.setRegs (s : State) (v : Vector Byte 16) : State := { s with v := v }

/-- `I <- a`. -/
def State.setIndex (s : State) (a : Word) : State := { s with i := a }

/-- `pc <- a`. -/
def State.setPc (s : State) (a : Word) : State := { s with pc := a }

/-- Memory replaced. -/
def State.setMem (s : State) (m : Memory) : State := { s with mem := m }

/-- The stack and its pointer replaced. -/
def State.setStack (s : State) (stack : Vector Word 16) (sp : Fin 17) : State := { s with stack := stack, sp := sp }

/-- The display replaced and the draw flag raised (R29). -/
def State.setDisplay (s : State) (d : Display) : State := { s with disp := d, drawFlag := true }

/-- `DT <- b`. -/
def State.setDelay (s : State) (b : Byte) : State := { s with dt := b }

/-- `ST <- b`. -/
def State.setSound (s : State) (b : Byte) : State := { s with st := b }

/-- `current_opcode <- w`. -/
def State.setOpcode (s : State) (w : Word) : State := { s with currentOpcode := w }

/-- The status the step returns. -/
def State.setStatus (s : State) (x : Status) : State := { s with status := x }

/-- The beep the step returns. -/
def State.setBeep (s : State) (b : Bool) : State := { s with beep := b }

/-- One random byte has been drawn. -/
def State.countDraw (s : State) : State := { s with draws := s.draws + 1 }

/-- The keypad snapshot replaced; only the host does this (R30). -/
def State.setKeys (s : State) (k : Vector Bool 16) : State := { s with key := k }

/-- `draw_flag <- 0`; only the host does this (R29). -/
def State.lowerDrawFlag (s : State) : State := { s with drawFlag := false }

/-! ### Registers -/

/-- `V[k]` (R21). -/
def State.reg (s : State) (k : Reg) : Byte := s.v[k]

/-- `VF <- 1` or `VF <- 0`. -/
def State.setFlag (s : State) (b : Bool) : State := s.setReg Config.flagReg (flagByte b)

/-- Bytes into consecutive registers, from register `k` up. -/
def loadFrom : Vector Byte 16 → Nat → List Byte → Vector Byte 16
  | v, _, [] => v
  | v, k, b :: rest => loadFrom (v.setIfInBounds k b) (k + 1) rest

/-- `V[0]` to `V[x]` (R187). -/
def State.regsUpTo (s : State) (x : Reg) : List Byte := s.v.toList.take (x.val + 1)

/-! ### Memory accesses with their bounds check (R52, R53, R206) -/

/-- The byte at an address, as a reader of the state sees it. -/
def State.byteAt (s : State) (a : Nat) : Byte := s.mem.read a

/-- The error of an access to `n` bytes from `base`, if one of them lies at or above `MEM_SIZE`: it records the first
such address. -/
def rangeError (s : State) (base n : Nat) : Option Fault :=
  if 0 < n ∧ Config.memSize ≤ base + n - 1 then some (.outOfRangeAddress (max base Config.memSize) s.pc) else none

/-- `MemRead` of `n` consecutive bytes: all addresses are checked first. -/
def readBytes (s : State) (base n : Nat) : Except Fault (List Byte) :=
  match rangeError s base n with
  | some f => .error f
  | none => .ok (s.mem.readList base n)

/-- `MemWrite` of consecutive bytes: all addresses are checked before any is written (R53). -/
def writeBytes (s : State) (base : Nat) (bs : List Byte) : Except Fault State :=
  match rangeError s base bs.length with
  | some f => .error f
  | none => .ok (s.setMem (s.mem.writeList base bs))

/-! ### The return stack (R26) -/

/-- Push an address; the error is that of a full stack (R204). -/
def pushStack (s : State) (a : Word) : Except Fault State :=
  if h : s.sp.val < Config.stackDepth then
    .ok (s.setStack (s.stack.set s.sp.val a h) ⟨s.sp.val + 1, Nat.succ_lt_succ h⟩)
  else .error (.stackOverflow s.pc)

/-- Pop the top address: the slot keeps its value (R26); the error is that of an empty stack (R205). -/
def popStack (s : State) : Except Fault (Word × State) :=
  if h : 0 < s.sp.val then
    .ok (s.stack[s.sp.val - 1]'(by have := s.sp.isLt; omega),
      s.setStack s.stack ⟨s.sp.val - 1, by have := s.sp.isLt; omega⟩)
  else .error (.stackUnderflow s.pc)

/-! ### The keypad (R30) -/

/-- Whether the key a byte names is pressed; the error is that of a value of 16 or more (R207). -/
def keyState (s : State) (k : Byte) : Except Fault Bool :=
  if h : k.toNat < Config.numKeys then .ok s.key[k.toNat] else .error (.outOfRangeOperand k s.pc)

/-! ### The display (R28, R160 to R162) -/

/-- The cell at column `x`, row `y`. -/
def Display.cell (d : Display) (x : Fin 64) (y : Fin 32) : Bool := d[y][x]

/-- `Disp[x, y] <- Disp[x, y] ^ 1`. -/
def Display.toggle (d : Display) (x : Fin 64) (y : Fin 32) : Display := d.set y (d[y].set x (!d[y][x]))

/-- The display with every cell 0. -/
def clearDisplay : Display := Vector.replicate 32 (Vector.replicate 64 false)

/-- One sprite pixel: where its bit is 1, note a collision with a set cell and toggle the cell (R162). -/
def drawPixel (x0 y0 row : Byte) (r : Nat) (dc : Display × Bool) (c : Nat) : Display × Bool :=
  if spriteBit row c then
    (dc.1.toggle (pixelColumn x0 c) (pixelRow y0 r), dc.2 || dc.1.cell (pixelColumn x0 c) (pixelRow y0 r))
  else dc

/-- The eight pixels of sprite row `r`, columns 0 to 7 in order. -/
def drawRow (x0 y0 row : Byte) (r : Nat) (dc : Display × Bool) : Display × Bool :=
  (List.range 8).foldl (drawPixel x0 y0 row r) dc

/-- The rows of a sprite from row `r` on, in order. -/
def drawRows (x0 y0 : Byte) : Nat → List Byte → Display × Bool → Display × Bool
  | _, [], dc => dc
  | r, row :: rest, dc => drawRows x0 y0 (r + 1) rest (drawRow x0 y0 row r dc)

/-- A sprite drawn at `(x0, y0)`: the new display, and whether a set cell was turned off (R162). -/
def drawSprite (x0 y0 : Byte) (rows : List Byte) (d : Display) : Display × Bool := drawRows x0 y0 0 rows (d, false)

/-! ### How an instruction ends -/

/-- The program-counter policies of R90. -/
inductive PcPolicy where
  /-- `advance(2)`. -/
  | advance2
  /-- `advance(4)`: a skip. -/
  | advance4
  /-- `set(target)`. -/
  | set (target : Word)
  /-- `hold`. -/
  | hold
  deriving DecidableEq, Repr

/-- The `pc` a policy gives, from the `pc` the instruction was fetched at; sums are mod 65536 (R90, R91). -/
def applyPolicy (p : PcPolicy) (pc : Word) : Word :=
  match p with
  | .advance2 => pc + 2
  | .advance4 => pc + 4
  | .set target => target
  | .hold => pc

/-- The skip policy: 4 on a skip, 2 otherwise (R90). -/
def skipIf (b : Bool) : PcPolicy := if b then .advance4 else .advance2

/-- An instruction completes: its policy is applied and its status recorded (R86, R200). -/
def complete (p : PcPolicy) (x : Status) (s : State) : Host.Outcome State Fault Refusal :=
  .next ((s.setPc (applyPolicy p s.pc)).setStatus x)

/-- An instruction completes normally. -/
def finish (p : PcPolicy) (s : State) : Host.Outcome State Fault Refusal := complete p .ok s

/-- TAKING A FATAL ERROR (R203, R209): nothing of the state it is given changes but the result it reports, which has no
beep. `s` is the state before the instruction, so the step is rolled back whole. -/
def raiseFatal (f : Fault) (s : State) : Host.Outcome State Fault Refusal :=
  .next ((s.setStatus (.fatal f)).setBeep false)

/-- Go on with the value of a checked operation, or take its fatal error in the state before the instruction. -/
def orFatal {α : Type} (r : Except Fault α) (s : State) (k : α → Host.Outcome State Fault Refusal) :
    Host.Outcome State Fault Refusal :=
  match r with
  | .error f => raiseFatal f s
  | .ok a => k a

/-- A decode error: a completed step that changes nothing, advances by 2 and reports the word (R202). -/
def reportDecodeError (w : Word) (s : State) : Host.Outcome State Fault Refusal := complete .advance2 (.decodeError w) s

/-- A result and a flag: the result is written first, the flag last (R40). -/
def finishWithFlag (x : Reg) (result : Byte) (flag : Bool) (s : State) : Host.Outcome State Fault Refusal :=
  finish .advance2 ((s.setReg x result).setFlag flag)

/-! ### What a step does around its instruction (R86) -/

/-- The word at `pc`: two bytes, bounds-checked, high byte first (R54, R87). -/
def fetchWord (s : State) : Except Fault Word :=
  match readBytes s s.pc.toNat 2 with
  | .error f => .error f
  | .ok bs => .ok (joinBytes (bs.getD 0 0) (bs.getD 1 0))

/-- After a successful fetch and before decode: `current_opcode` takes the word (R88). -/
def latchOpcode (w : Word) (s : State) : State := s.setOpcode w

/-- A timer counts down while it is not zero (R212). -/
def countDown (t : Byte) : Byte := if t = 0 then 0 else t - 1

/-- The tick: the beep is that of a sound timer at 1, then each timer counts down (R212, R213). -/
def tick (s : State) : State := ((s.setBeep (s.st == 1)).setDelay (countDown s.dt)).setSound (countDown s.st)

/-- The status is a fatal error. -/
def Status.isFatal : Status → Bool
  | .ok => false
  | .waiting => false
  | .decodeError _ => false
  | .fatal _ => true

/-- The end of a step: a completed one ticks, a fatal one does not (R203, R212). -/
def endStep : Host.Outcome State Fault Refusal → Host.Outcome State Fault Refusal
  | .next s => if s.status.isFatal then .next s else .next (tick s)
  | .fault f => .fault f
  | .refused r => .refused r

end Sys2Proof.Machine
end

