-- ==== Sys2Proof/Machine/Alu.lean ====
section
/-! DEFINITION. Families 0x6, 0x7 and 0x8 (spec/42_load_alu.md): load immediate, add immediate, and the two-register
operations. Byte arithmetic wraps mod 256 (R141); operands are read before anything is written (R39). -/

namespace Sys2Proof.Machine

/-- LD VX, NN (R130). -/
def execLdImm (x : Reg) (nn : Byte) (s : State) : Host.Outcome State Fault Refusal := finish .advance2 (s.setReg x nn)

/-- ADD VX, NN: no flag (R131). -/
def execAddImm (x : Reg) (nn : Byte) (s : State) : Host.Outcome State Fault Refusal :=
  finish .advance2 (s.setReg x (s.reg x + nn))

/-- LD VX, VY (R132). -/
def execLdReg (x y : Reg) (s : State) : Host.Outcome State Fault Refusal := finish .advance2 (s.setReg x (s.reg y))

/-- OR VX, VY: no flag (R133). -/
def execOrReg (x y : Reg) (s : State) : Host.Outcome State Fault Refusal :=
  finish .advance2 (s.setReg x (s.reg x ||| s.reg y))

/-- AND VX, VY: no flag (R134). -/
def execAndReg (x y : Reg) (s : State) : Host.Outcome State Fault Refusal :=
  finish .advance2 (s.setReg x (s.reg x &&& s.reg y))

/-- XOR VX, VY: no flag (R135). -/
def execXorReg (x y : Reg) (s : State) : Host.Outcome State Fault Refusal :=
  finish .advance2 (s.setReg x (s.reg x ^^^ s.reg y))

/-- ADD VX, VY with carry (R136). -/
def execAddReg (x y : Reg) (s : State) : Host.Outcome State Fault Refusal :=
  finishWithFlag x (s.reg x + s.reg y) (carryOf (s.reg x) (s.reg y)) s

/-- SUB VX, VY with not-borrow (R137). -/
def execSubReg (x y : Reg) (s : State) : Host.Outcome State Fault Refusal :=
  finishWithFlag x (s.reg x - s.reg y) (notBorrowOf (s.reg x) (s.reg y)) s

/-- SHR VX: `V[X]` itself is shifted, `Y` is not read (R138). -/
def execShr (x : Reg) (s : State) : Host.Outcome State Fault Refusal :=
  finishWithFlag x (s.reg x >>> 1) (lowBit (s.reg x)) s

/-- SUBN VX, VY: `V[Y] - V[X]` with not-borrow (R139). -/
def execSubnReg (x y : Reg) (s : State) : Host.Outcome State Fault Refusal :=
  finishWithFlag x (s.reg y - s.reg x) (notBorrowOf (s.reg y) (s.reg x)) s

/-- SHL VX: `V[X]` itself is shifted, `Y` is not read (R140). -/
def execShl (x : Reg) (s : State) : Host.Outcome State Fault Refusal :=
  finishWithFlag x (s.reg x <<< 1) (highBit (s.reg x)) s

end Sys2Proof.Machine
end

