-- ==== Sys2Proof/Machine/Draw.lean ====
section
/-! DEFINITION. Family 0xD (spec/44_draw.md): draw a sprite by XOR and report a collision. -/

namespace Sys2Proof.Machine

/-- DRW VX, VY, N: the coordinates are read first, the rows are bounds-checked, the flag is written last, the draw flag
is always raised (R162). With `n = 0` no row is read and no check applies. -/
def execDrw (x y : Reg) (n : Nibble) (s : State) : Host.Outcome State Fault Refusal :=
  orFatal (readBytes s s.i.toNat n.toNat) s fun rows =>
    let dc := drawSprite (s.reg x) (s.reg y) rows s.disp
    finish .advance2 ((s.setDisplay dc.1).setFlag dc.2)

end Sys2Proof.Machine
end

