-- ==== Sys2Proof/Machine/FamilyF.lean ====
section
/-! DEFINITION. Family 0xF (spec/46_family_F.md): timers, key wait, index arithmetic, font, decimal digits, register dump
and load. -/

namespace Sys2Proof.Machine

/-- LD VX, DT: the timer as the step before left it (R180). -/
def execLdVxDt (x : Reg) (s : State) : Host.Outcome State Fault Refusal := finish .advance2 (s.setReg x s.dt)

/-- LD VX, K: the lowest pressed key, or a step that waits at the same `pc` (R181, R215). -/
def execLdVxK (x : Reg) (s : State) : Host.Outcome State Fault Refusal :=
  match lowestKey s.key with
  | some k => finish .advance2 (s.setReg x (keyIndex k))
  | none => complete .hold .waiting s

/-- LD DT, VX (R182). -/
def execLdDtVx (x : Reg) (s : State) : Host.Outcome State Fault Refusal := finish .advance2 (s.setDelay (s.reg x))

/-- LD ST, VX (R183). -/
def execLdStVx (x : Reg) (s : State) : Host.Outcome State Fault Refusal := finish .advance2 (s.setSound (s.reg x))

/-- ADD I, VX: 12-bit wrap, and the flag tests the whole sum (R184). -/
def execAddI (x : Reg) (s : State) : Host.Outcome State Fault Refusal :=
  let sum := indexSum s.i (s.reg x)
  finish .advance2 ((s.setIndex (wrap12 sum)).setFlag (indexOverflow sum))

/-- LD F, VX: the glyph of the low nibble (R185). -/
def execLdF (x : Reg) (s : State) : Host.Outcome State Fault Refusal :=
  finish .advance2 (s.setIndex (glyphAddress (s.reg x)))

/-- LD B, VX: three decimal digits at `I`; `I` is unchanged (R186). -/
def execLdB (x : Reg) (s : State) : Host.Outcome State Fault Refusal :=
  orFatal (writeBytes s s.i.toNat (bcdDigits (s.reg x))) s fun t => finish .advance2 t

/-- LD [I], VX: dump `V[0]` to `V[X]`, then `I <- I + X + 1`, not masked (R187). -/
def execStoreRegs (x : Reg) (s : State) : Host.Outcome State Fault Refusal :=
  orFatal (writeBytes s s.i.toNat (s.regsUpTo x)) s fun t =>
    finish .advance2 (t.setIndex (s.i + BitVec.ofNat 16 (x.val + 1)))

/-- LD VX, [I]: load `V[0]` to `V[X]`, then `I <- I + X + 1`, not masked (R188). -/
def execLoadRegs (x : Reg) (s : State) : Host.Outcome State Fault Refusal :=
  orFatal (readBytes s s.i.toNat (x.val + 1)) s fun bs =>
    finish .advance2 ((s.setRegs (loadFrom s.v 0 bs)).setIndex (s.i + BitVec.ofNat 16 (x.val + 1)))

end Sys2Proof.Machine
end

