-- ==== Sys2Proof/Machine/Flow.lean ====
section
/-! DEFINITION. Families 0x0, 0x1 and 0x2 (spec/40_family0-2_flow.md): SYS, CLS, RET, JP, CALL. -/

namespace Sys2Proof.Machine

/-- SYS NNN: a decode error that reports its own word (R100). -/
def execSys (nnn : Addr) (s : State) : Host.Outcome State Fault Refusal := reportDecodeError (sysWord nnn) s

/-- CLS: every cell 0, and the draw flag raised (R101). -/
def execCls (s : State) : Host.Outcome State Fault Refusal := finish .advance2 (s.setDisplay clearDisplay)

/-- RET: pop the call's own address and go to the word after it (R102, C1). -/
def execRet (s : State) : Host.Outcome State Fault Refusal :=
  orFatal (popStack s) s fun p => finish (.set (p.1 + 2)) p.2

/-- JP NNN (R103). -/
def execJp (nnn : Addr) (s : State) : Host.Outcome State Fault Refusal := finish (.set (addrOperand nnn)) s

/-- CALL NNN: push the address of this word and jump (R27, R104). -/
def execCall (nnn : Addr) (s : State) : Host.Outcome State Fault Refusal :=
  orFatal (pushStack s s.pc) s fun t => finish (.set (addrOperand nnn)) t

end Sys2Proof.Machine
end

