-- ==== Sys2Proof/Machine/Index.lean ====
section
/-! DEFINITION. Families 0xA, 0xB and 0xC (spec/43_index_jump_random.md): load index, jump indexed, random. -/

namespace Sys2Proof.Machine

/-- LD I, NNN (R150). -/
def execLdI (nnn : Addr) (s : State) : Host.Outcome State Fault Refusal :=
  finish .advance2 (s.setIndex (addrOperand nnn))

/-- JP V0, NNN: always `V[0]`, and the sum is not masked (R151). -/
def execJpV0 (nnn : Addr) (s : State) : Host.Outcome State Fault Refusal :=
  finish (.set (indexedTarget nnn (s.reg 0))) s

/-- RND with the byte that was drawn (R152). -/
def rndWith (r : Byte) (x : Reg) (nn : Byte) (s : State) : Host.Outcome State Fault Refusal :=
  finish .advance2 (s.setReg x (r &&& nn))

/-- RND VX, NN: the byte drawn is the free value `Config.randByte` of this draw (R152, R216, log entry 5). -/
def execRnd (x : Reg) (nn : Byte) (s : State) : Host.Outcome State Fault Refusal :=
  rndWith (Config.randByte s.draws) x nn s.countDraw

end Sys2Proof.Machine
end

