-- ==== Sys2Proof/Machine/Keys.lean ====
section
/-! DEFINITION. Family 0xE (spec/45_keys.md): the key skips. -/

namespace Sys2Proof.Machine

/-- SKP VX: skip if the key is pressed (R170). -/
def execSkp (x : Reg) (s : State) : Host.Outcome State Fault Refusal :=
  orFatal (keyState s (s.reg x)) s fun pressed => finish (skipIf pressed) s

/-- SKNP VX: skip if the key is not pressed (R171). -/
def execSknp (x : Reg) (s : State) : Host.Outcome State Fault Refusal :=
  orFatal (keyState s (s.reg x)) s fun pressed => finish (skipIf (!pressed)) s

end Sys2Proof.Machine
end

