-- ==== Sys2Proof/Machine/Skips.lean ====
section
/-! DEFINITION. Families 0x3, 0x4, 0x5 and 0x9 (spec/41_skips.md): the conditional skips. -/

namespace Sys2Proof.Machine

/-- SE VX, NN (R120). -/
def execSeImm (x : Reg) (nn : Byte) (s : State) : Host.Outcome State Fault Refusal := finish (skipIf (s.reg x == nn)) s

/-- SNE VX, NN (R121). -/
def execSneImm (x : Reg) (nn : Byte) (s : State) : Host.Outcome State Fault Refusal := finish (skipIf (s.reg x != nn)) s

/-- SE VX, VY; the low nibble is not examined (R76, R122). -/
def execSeReg (x y : Reg) (s : State) : Host.Outcome State Fault Refusal := finish (skipIf (s.reg x == s.reg y)) s

/-- SNE VX, VY; the low nibble is not examined (R76, R123). -/
def execSneReg (x y : Reg) (s : State) : Host.Outcome State Fault Refusal := finish (skipIf (s.reg x != s.reg y)) s

end Sys2Proof.Machine
end

