-- ==== Sys2Proof/Machine/Step.lean ====
section
/-! DEFINITION. One call of `step()` (spec/30_encoding.md R86), and how the host's check places an instruction. -/

namespace Sys2Proof.Machine

/-- Fetch, write `current_opcode`, decode, execute and apply the policy, tick (R86). A failed fetch, or a fatal error in
execution, ends the step with no tick (R203); a word that is no instruction completes with a report (R202). -/
def step (s : State) : Host.Outcome State Fault Refusal :=
  match fetchWord s with
  | .error f => raiseFatal f s
  | .ok w =>
    match decodeWord w with
    | .error _ => endStep (reportDecodeError w (latchOpcode w s))
    | .ok i => endStep (exec i (latchOpcode w s))

/-- The state with one instruction stored where the next step fetches, at `pc` (log entry 7). Where `pc` is no address a
fetch can succeed at, the instruction goes to `PROG_START` and `pc` with it. -/
def State.withFetchWord (s : State) (nbits w : Nat) : State :=
  let t := if s.pc.toNat + 1 < Config.memSize then s else s.setPc (BitVec.ofNat 16 Config.progStart)
  t.setMem (t.mem.writeList t.pc.toNat (wordBytes (tableWord nbits w)))

end Sys2Proof.Machine
end

