-- ==== Sys2Proof/Machine/HostOps.lean ====
section
/-! DEFINITION. What the host may do to the machine between steps (spec/60_exceptions.md R218): reset, load an image,
clear the draw flag, write a keypad snapshot. -/

namespace Sys2Proof.Machine

/-- Why `load` rejects an image (spec/60_exceptions.md R201, spec/70_reset_and_hazards.md R244). -/
inductive LoadError where
  /-- The image is longer than `MEM_SIZE - 0x200` bytes. -/
  | exceedsCapacity
  deriving DecidableEq, Repr

/-- `reset()`: every field of the spec takes its reset value, whatever the state was (R240, R241). The count of random
draws goes on, so that a draw after a reset is a fresh one (R216, log entry 5). -/
def hostReset (s : State) : State := { State.reset with draws := s.draws }

/-- `load(bytes)`: the image goes to `PROG_START`, or the load is rejected whole (R243, R244). -/
def hostLoad (bytes : List Byte) (s : State) : Except LoadError State :=
  if bytes.length ≤ Config.memSize - Config.progStart then
    .ok (s.setMem (s.mem.writeList Config.progStart bytes))
  else .error .exceedsCapacity

/-- `clear_draw_flag()` (R219). -/
def hostClearDrawFlag (s : State) : State := s.lowerDrawFlag

/-- `set_keys(k)`: the whole snapshot (R220). -/
def hostSetKeys (k : Vector Bool 16) (s : State) : State := s.setKeys k

/-- The host operations that can change the state (R218). -/
inductive HostOp where
  | reset
  | load (bytes : List Byte)
  | clearDrawFlag
  | setKeys (k : Vector Bool 16)
  deriving DecidableEq, Repr

/-- The state after a host operation; a rejected load leaves it as it was (R244). -/
def applyHostOp (op : HostOp) (s : State) : State :=
  match op with
  | .reset => hostReset s
  | .load bytes =>
    match hostLoad bytes s with
    | .ok t => t
    | .error _ => s
  | .clearDrawFlag => hostClearDrawFlag s
  | .setKeys k => hostSetKeys k s

end Sys2Proof.Machine
end

