-- ==== Sys2Proof/Safety.lean ====
section
/-! DEFINITION. The terms claims are stated in: which parts of the state two states share, the invariant of every run,
the states a run reaches, and a step that went well. -/

namespace Sys2Proof.Machine

/-- The parts of the state, one for each field: what a frame names. -/
inductive Part where
  | mem | regs | index | pc | stack | sp | disp | drawFlag | key | delay | sound | opcode | status | beep | draws
  deriving DecidableEq, Repr

/-- The two states agree on a part. Memory agrees when every address reads the same. -/
def Part.same (p : Part) (s t : State) : Prop :=
  match p with
  | .mem => ∀ a, t.byteAt a = s.byteAt a
  | .regs => ∀ k, t.reg k = s.reg k
  | .index => t.i = s.i
  | .pc => t.pc = s.pc
  | .stack => t.stack = s.stack
  | .sp => t.sp = s.sp
  | .disp => t.disp = s.disp
  | .drawFlag => t.drawFlag = s.drawFlag
  | .key => t.key = s.key
  | .delay => t.dt = s.dt
  | .sound => t.st = s.st
  | .opcode => t.currentOpcode = s.currentOpcode
  | .status => t.status = s.status
  | .beep => t.beep = s.beep
  | .draws => t.draws = s.draws

/-- Nothing differs from `s` to `t` but, perhaps, the parts listed: the frame of an instruction. -/
def SameExcept (parts : List Part) (s t : State) : Prop := ∀ p, p ∉ parts → p.same s t

/-- The step whose result is in `s` was rolled back by a fatal error (spec/60_exceptions.md R203). -/
def State.failed (s : State) : Bool := s.status.isFatal

/-- What holds of every state of a run: memory is in canonical form, `I` is at most 0x1000 (spec/10_state.md R23), `pc`
is at most 0x10FE (spec/30_encoding.md R91), and every stack slot holds an address a call was fetched at, at most 0xFFE
(spec/40_family0-2_flow.md R102). -/
structure Inv (s : State) : Prop where
  memory : s.mem.wf
  index : s.i.toNat ≤ 0x1000
  counter : s.pc.toNat ≤ 0x10FE
  slots : ∀ k : Fin 16, s.stack[k].toNat ≤ 0xFFE

/-- The states of the runs: from reset, by steps and host operations in any order (spec/60_exceptions.md R226). -/
inductive Reachable : State → Prop where
  | reset : Reachable State.reset
  | step {s t : State} : Reachable s → Machine.step s = .next t → Reachable t
  | host {s : State} (op : HostOp) : Reachable s → Reachable (applyHostOp op s)

/-- The conventional end of a program: `pc` points at a jump to its own address (spec/60_exceptions.md R226). -/
def State.atSelfJump (s : State) : Prop := ∃ nnn : Addr, fetchWord s = .ok (encode (.jp nnn)) ∧ s.pc = addrOperand nnn

end Sys2Proof.Machine
end

