-- ==== Sys2Proof/Certificates/Slice0/Obligations.lean ====
section
/-! DEFINITION. The statements for the provers. Each says in its docstring which rule of `spec/` it formalises; a clause
that rests on a decision the spec marks as its own (D<n> of spec/92_eei_decisions.md) or on a choice of the model (a log
entry) says so. In every statement about an instruction `t` is the state `exec` answers and `SameExcept` is the frame. -/

open Sys2Proof Sys2Proof.Machine

namespace Sys2Proof.Claims

/-- A step or an instruction answers this fatal error in the state it began in: the report is all that changes, and
there is no beep (spec/60_exceptions.md R203). -/
def fatalIn (s : State) (f : Fault) : State := { s with status := .fatal f, beep := false }

/-- The mask and the match of an instruction's row in the opcode map (spec/30_encoding.md R74). -/
def rowOf : Instr → Word × Word
  | .cls => (0xFFFF, 0x00E0)
  | .ret => (0xFFFF, 0x00EE)
  | .sys _ => (0xF000, 0x0000)
  | .jp _ => (0xF000, 0x1000)
  | .call _ => (0xF000, 0x2000)
  | .seImm _ _ => (0xF000, 0x3000)
  | .sneImm _ _ => (0xF000, 0x4000)
  | .seReg _ _ _ => (0xF000, 0x5000)
  | .ldImm _ _ => (0xF000, 0x6000)
  | .addImm _ _ => (0xF000, 0x7000)
  | .ldReg _ _ => (0xF00F, 0x8000)
  | .orReg _ _ => (0xF00F, 0x8001)
  | .andReg _ _ => (0xF00F, 0x8002)
  | .xorReg _ _ => (0xF00F, 0x8003)
  | .addReg _ _ => (0xF00F, 0x8004)
  | .subReg _ _ => (0xF00F, 0x8005)
  | .shr _ _ => (0xF00F, 0x8006)
  | .subnReg _ _ => (0xF00F, 0x8007)
  | .shl _ _ => (0xF00F, 0x800E)
  | .sneReg _ _ _ => (0xF000, 0x9000)
  | .ldI _ => (0xF000, 0xA000)
  | .jpV0 _ => (0xF000, 0xB000)
  | .rnd _ _ => (0xF000, 0xC000)
  | .drw _ _ _ => (0xF000, 0xD000)
  | .skp _ => (0xF0FF, 0xE09E)
  | .sknp _ => (0xF0FF, 0xE0A1)
  | .ldVxDt _ => (0xF0FF, 0xF007)
  | .ldVxK _ => (0xF0FF, 0xF00A)
  | .ldDtVx _ => (0xF0FF, 0xF015)
  | .ldStVx _ => (0xF0FF, 0xF018)
  | .addI _ => (0xF0FF, 0xF01E)
  | .ldF _ => (0xF0FF, 0xF029)
  | .ldB _ => (0xF0FF, 0xF033)
  | .storeRegs _ => (0xF0FF, 0xF055)
  | .loadRegs _ => (0xF0FF, 0xF065)

/-- The instruction's operands are the fields of the word, as numbers: `X` is bits 11:8, `Y` bits 7:4, `N` bits 3:0,
`NN` bits 7:0, `NNN` bits 11:0 (spec/30_encoding.md R71, R73). -/
def operandsAreFields (i : Instr) (w : Nat) : Prop :=
  match i with
  | .cls => True
  | .ret => True
  | .sys nnn => nnn.toNat = w % 4096
  | .jp nnn => nnn.toNat = w % 4096
  | .call nnn => nnn.toNat = w % 4096
  | .seImm x nn => x.val = w / 256 % 16 ∧ nn.toNat = w % 256
  | .sneImm x nn => x.val = w / 256 % 16 ∧ nn.toNat = w % 256
  | .seReg x y n => x.val = w / 256 % 16 ∧ y.val = w / 16 % 16 ∧ n.toNat = w % 16
  | .ldImm x nn => x.val = w / 256 % 16 ∧ nn.toNat = w % 256
  | .addImm x nn => x.val = w / 256 % 16 ∧ nn.toNat = w % 256
  | .ldReg x y => x.val = w / 256 % 16 ∧ y.val = w / 16 % 16
  | .orReg x y => x.val = w / 256 % 16 ∧ y.val = w / 16 % 16
  | .andReg x y => x.val = w / 256 % 16 ∧ y.val = w / 16 % 16
  | .xorReg x y => x.val = w / 256 % 16 ∧ y.val = w / 16 % 16
  | .addReg x y => x.val = w / 256 % 16 ∧ y.val = w / 16 % 16
  | .subReg x y => x.val = w / 256 % 16 ∧ y.val = w / 16 % 16
  | .shr x y => x.val = w / 256 % 16 ∧ y.val = w / 16 % 16
  | .subnReg x y => x.val = w / 256 % 16 ∧ y.val = w / 16 % 16
  | .shl x y => x.val = w / 256 % 16 ∧ y.val = w / 16 % 16
  | .sneReg x y n => x.val = w / 256 % 16 ∧ y.val = w / 16 % 16 ∧ n.toNat = w % 16
  | .ldI nnn => nnn.toNat = w % 4096
  | .jpV0 nnn => nnn.toNat = w % 4096
  | .rnd x nn => x.val = w / 256 % 16 ∧ nn.toNat = w % 256
  | .drw x y n => x.val = w / 256 % 16 ∧ y.val = w / 16 % 16 ∧ n.toNat = w % 16
  | .skp x => x.val = w / 256 % 16
  | .sknp x => x.val = w / 256 % 16
  | .ldVxDt x => x.val = w / 256 % 16
  | .ldVxK x => x.val = w / 256 % 16
  | .ldDtVx x => x.val = w / 256 % 16
  | .ldStVx x => x.val = w / 256 % 16
  | .addI x => x.val = w / 256 % 16
  | .ldF x => x.val = w / 256 % 16
  | .ldB x => x.val = w / 256 % 16
  | .storeRegs x => x.val = w / 256 % 16
  | .loadRegs x => x.val = w / 256 % 16

/-- The `pc` after an instruction that completes in `s`, by the policy table of spec/30_encoding.md R90. -/
def policyPc (i : Instr) (s : State) : Word :=
  match i with
  | .cls => s.pc + 2
  | .ret => s.stack[s.sp.val - 1]! + 2
  | .sys _ => s.pc + 2
  | .jp nnn => nnn.setWidth 16
  | .call nnn => nnn.setWidth 16
  | .seImm x nn => if s.reg x = nn then s.pc + 4 else s.pc + 2
  | .sneImm x nn => if s.reg x = nn then s.pc + 2 else s.pc + 4
  | .seReg x y _ => if s.reg x = s.reg y then s.pc + 4 else s.pc + 2
  | .ldImm _ _ => s.pc + 2
  | .addImm _ _ => s.pc + 2
  | .ldReg _ _ => s.pc + 2
  | .orReg _ _ => s.pc + 2
  | .andReg _ _ => s.pc + 2
  | .xorReg _ _ => s.pc + 2
  | .addReg _ _ => s.pc + 2
  | .subReg _ _ => s.pc + 2
  | .shr _ _ => s.pc + 2
  | .subnReg _ _ => s.pc + 2
  | .shl _ _ => s.pc + 2
  | .sneReg x y _ => if s.reg x = s.reg y then s.pc + 2 else s.pc + 4
  | .ldI _ => s.pc + 2
  | .jpV0 nnn => BitVec.ofNat 16 (nnn.toNat + (s.reg 0).toNat)
  | .rnd _ _ => s.pc + 2
  | .drw _ _ _ => s.pc + 2
  | .skp x => if s.key[(s.reg x).toNat]! then s.pc + 4 else s.pc + 2
  | .sknp x => if s.key[(s.reg x).toNat]! then s.pc + 2 else s.pc + 4
  | .ldVxDt _ => s.pc + 2
  | .ldVxK _ => if ∃ k : Fin 16, s.key[k] = true then s.pc + 2 else s.pc
  | .ldDtVx _ => s.pc + 2
  | .ldStVx _ => s.pc + 2
  | .addI _ => s.pc + 2
  | .ldF _ => s.pc + 2
  | .ldB _ => s.pc + 2
  | .storeRegs _ => s.pc + 2
  | .loadRegs _ => s.pc + 2

/-- The parts an instruction may write, beside `pc`, the status and the beep of a fatal error, which every instruction
may (spec/10_state.md R22 to R33, spec/20_memory.md R51). -/
def writes : Instr → List Part
  | .cls => [.disp, .drawFlag]
  | .ret => [.sp]
  | .sys _ => []
  | .jp _ => []
  | .call _ => [.stack, .sp]
  | .seImm _ _ => []
  | .sneImm _ _ => []
  | .seReg _ _ _ => []
  | .ldImm _ _ => [.regs]
  | .addImm _ _ => [.regs]
  | .ldReg _ _ => [.regs]
  | .orReg _ _ => [.regs]
  | .andReg _ _ => [.regs]
  | .xorReg _ _ => [.regs]
  | .addReg _ _ => [.regs]
  | .subReg _ _ => [.regs]
  | .shr _ _ => [.regs]
  | .subnReg _ _ => [.regs]
  | .shl _ _ => [.regs]
  | .sneReg _ _ _ => []
  | .ldI _ => [.index]
  | .jpV0 _ => []
  | .rnd _ _ => [.regs, .draws]
  | .drw _ _ _ => [.disp, .drawFlag, .regs]
  | .skp _ => []
  | .sknp _ => []
  | .ldVxDt _ => [.regs]
  | .ldVxK _ => [.regs]
  | .ldDtVx _ => [.delay]
  | .ldStVx _ => [.sound]
  | .addI _ => [.index, .regs]
  | .ldF _ => [.index]
  | .ldB _ => [.mem]
  | .storeRegs _ => [.mem, .index]
  | .loadRegs _ => [.regs, .index]

/-- Register `k` is a destination of the instruction: its register field, or `VF` where the instruction writes it as a
side flag (spec/10_state.md R22). -/
def isDestination (i : Instr) (k : Reg) : Prop :=
  match i with
  | .cls => False
  | .ret => False
  | .sys _ => False
  | .jp _ => False
  | .call _ => False
  | .seImm _ _ => False
  | .sneImm _ _ => False
  | .seReg _ _ _ => False
  | .ldImm x _ => k = x
  | .addImm x _ => k = x
  | .ldReg x _ => k = x
  | .orReg x _ => k = x
  | .andReg x _ => k = x
  | .xorReg x _ => k = x
  | .addReg x _ => k = x ∨ k = 15
  | .subReg x _ => k = x ∨ k = 15
  | .shr x _ => k = x ∨ k = 15
  | .subnReg x _ => k = x ∨ k = 15
  | .shl x _ => k = x ∨ k = 15
  | .sneReg _ _ _ => False
  | .ldI _ => False
  | .jpV0 _ => False
  | .rnd x _ => k = x
  | .drw _ _ _ => k = 15
  | .skp _ => False
  | .sknp _ => False
  | .ldVxDt x => k = x
  | .ldVxK x => k = x
  | .ldDtVx _ => False
  | .ldStVx _ => False
  | .addI _ => k = 15
  | .ldF _ => False
  | .ldB _ => False
  | .storeRegs _ => False
  | .loadRegs x => k ≤ x

/-- How many bytes from `I` on the instruction stores to (spec/20_memory.md R57): 3 for FX33, X + 1 for FX55, none for
any other. -/
def storedBytes : Instr → Nat
  | .cls => 0
  | .ret => 0
  | .sys _ => 0
  | .jp _ => 0
  | .call _ => 0
  | .seImm _ _ => 0
  | .sneImm _ _ => 0
  | .seReg _ _ _ => 0
  | .ldImm _ _ => 0
  | .addImm _ _ => 0
  | .ldReg _ _ => 0
  | .orReg _ _ => 0
  | .andReg _ _ => 0
  | .xorReg _ _ => 0
  | .addReg _ _ => 0
  | .subReg _ _ => 0
  | .shr _ _ => 0
  | .subnReg _ _ => 0
  | .shl _ _ => 0
  | .sneReg _ _ _ => 0
  | .ldI _ => 0
  | .jpV0 _ => 0
  | .rnd _ _ => 0
  | .drw _ _ _ => 0
  | .skp _ => 0
  | .sknp _ => 0
  | .ldVxDt _ => 0
  | .ldVxK _ => 0
  | .ldDtVx _ => 0
  | .ldStVx _ => 0
  | .addI _ => 0
  | .ldF _ => 0
  | .ldB _ => 3
  | .storeRegs x => x.val + 1
  | .loadRegs _ => 0

/-- A 1 bit of the sprite DXYN draws in `s` lands on the cell at column `px`, row `py`: bit `7 - c` of the byte at
`I + r` is 1, and the coordinates wrap mod 64 and mod 32 (spec/44_draw.md R160, R161). -/
def spriteLands (s : State) (x y : Reg) (n : Nibble) (px : Fin 64) (py : Fin 32) : Prop :=
  ∃ r < n.toNat, ∃ c < 8, (s.byteAt (s.i.toNat + r)).toNat / 2 ^ (7 - c) % 2 = 1 ∧
    px.val = ((s.reg x).toNat + c) % 64 ∧ py.val = ((s.reg y).toNat + r) % 32

end Sys2Proof.Claims

open Sys2Proof.Claims

/-! ### Reset, the invariant, whole runs -/

/-- 10_state.md R38 and 70_reset_and_hazards.md R240: every field of the spec after reset. That `I`, the draw flag, the
keys, `current_opcode` and the memory outside the font are 0 is the spec's own decision D14, and the font bytes of
20_memory.md R60 are D2 (log entry 1). -/
def Obligations.ResetGivesEveryFieldItsValue : Prop :=
  (List.range 80).map State.reset.byteAt =
      [0xF0, 0x90, 0x90, 0x90, 0xF0] ++ [0x20, 0x60, 0x20, 0x20, 0x70] ++ [0xF0, 0x10, 0xF0, 0x80, 0xF0] ++
      [0xF0, 0x10, 0xF0, 0x10, 0xF0] ++ [0x90, 0x90, 0xF0, 0x10, 0x10] ++ [0xF0, 0x80, 0xF0, 0x10, 0xF0] ++
      [0xF0, 0x80, 0xF0, 0x90, 0xF0] ++ [0xF0, 0x10, 0x20, 0x40, 0x40] ++ [0xF0, 0x90, 0xF0, 0x90, 0xF0] ++
      [0xF0, 0x90, 0xF0, 0x10, 0xF0] ++ [0xF0, 0x90, 0xF0, 0x90, 0x90] ++ [0xE0, 0x90, 0xE0, 0x90, 0xE0] ++
      [0xF0, 0x80, 0x80, 0x80, 0xF0] ++ [0xE0, 0x90, 0x90, 0x90, 0xE0] ++ [0xF0, 0x80, 0xF0, 0x80, 0xF0] ++
      [0xF0, 0x80, 0xF0, 0x80, 0x80] ∧
  (∀ a, 0x50 ≤ a → a < 0x1000 → State.reset.byteAt a = 0) ∧
  (∀ k : Reg, State.reset.reg k = 0) ∧ State.reset.i = 0 ∧ State.reset.pc = 0x200 ∧
  (∀ k : Fin 16, State.reset.stack[k] = 0) ∧ State.reset.sp = 0 ∧
  (∀ x y, State.reset.disp.cell x y = false) ∧ State.reset.drawFlag = false ∧
  (∀ k : Fin 16, State.reset.key[k] = false) ∧ State.reset.dt = 0 ∧ State.reset.st = 0 ∧
  State.reset.currentOpcode = 0

/-- The invariant holds of the reset state (its canonical memory is log entry 2). -/
def Obligations.ResetMeetsInvariant : Prop := Inv State.reset

/-- Every step keeps the invariant, from every state that meets it: memory stays canonical (log entry 2), `I` stays at
most 0x1000 (10_state.md R23), `pc` at most 0x10FE (30_encoding.md R91), and every stack slot at most 0xFFE
(40_family0-2_flow.md R102), which the spec marks as derived. -/
def Obligations.StepKeepsInvariant : Prop := ∀ s t : State, Inv s → step s = .next t → Inv t

/-- The invariant holds of every state a run of steps and host operations reaches (60_exceptions.md R218, R226; its
canonical memory is log entry 2). -/
def Obligations.ReachableStatesMeetInvariant : Prop := ∀ s : State, Reachable s → Inv s

/-- No step stops the machine: it answers a next state from every state, with the error in its status where there is one
(60_exceptions.md R203, R226; that a fatal error is a next state is log entry 4). -/
def Obligations.EveryStepAnswersANextState : Prop := ∀ s : State, ∃ t, step s = .next t

/-! ### Encoding -/

/-- The bytes of a well-formed instruction, high byte first, decode to it, whatever follows them (30_encoding.md R74,
20_memory.md R54; that the whole words 00E0 and 00EE match first is D3, that `n` of 5XYn and 9XYn is not examined D4). -/
def Obligations.DecodeInvertsEncode : Prop :=
  ∀ (i : Instr) (rest : List Byte), i.wellFormed = true → decodeBytes (encodeBytes i ++ rest) = .ok (i, rest)

/-- A word that decodes is the encoding of what it decodes to, which is well-formed: no bit of a word is dropped
(30_encoding.md R81, R85, marked derived). -/
def Obligations.EncodeInvertsDecode : Prop :=
  ∀ (w : Word) (i : Instr), decodeWord w = .ok i → encode i = w ∧ i.wellFormed = true

/-- 30_encoding.md R74 with the precedence of R75 (D3): a word decodes to an instruction exactly when it matches the
instruction's row under its mask, the operands are the word's fields, and, for SYS, the word is neither 00E0 nor 00EE. -/
def Obligations.EachWordDecodesByItsRow : Prop :=
  ∀ (w : Word) (i : Instr), decodeWord w = .ok i ↔
    w &&& (rowOf i).1 = (rowOf i).2 ∧ operandsAreFields i w.toNat ∧
      ((∃ nnn, i = .sys nnn) → w ≠ 0x00E0 ∧ w ≠ 0x00EE)

/-- 30_encoding.md R80: the words that are decode errors are exactly those of families 8, E and F whose sub-selector
names no row, and every word of family 0 but 00E0 and 00EE is SYS, which behaves the same way. -/
def Obligations.IllegalWordsAreExactlyTheListedOnes : Prop :=
  (∀ w : Word, (∀ i, decodeWord w ≠ .ok i) ↔
    (w.toNat / 4096 = 0x8 ∧ w.toNat % 16 ∈ [0x8, 0x9, 0xA, 0xB, 0xC, 0xD, 0xF]) ∨
    (w.toNat / 4096 = 0xE ∧ w.toNat % 256 ∉ [0x9E, 0xA1]) ∨
    (w.toNat / 4096 = 0xF ∧ w.toNat % 256 ∉ [0x07, 0x0A, 0x15, 0x18, 0x1E, 0x29, 0x33, 0x55, 0x65])) ∧
  (∀ w : Word, (∃ nnn, decodeWord w = .ok (.sys nnn)) ↔ w.toNat / 4096 = 0 ∧ w ≠ 0x00E0 ∧ w ≠ 0x00EE)

/-- Words written out from the encodings of 30_encoding.md R74, one a family, decode to what they stand for. -/
def Obligations.WrittenWordsDecodeRight : Prop :=
  decodeTableWord 16 0x00E0 = some .cls ∧ decodeTableWord 16 0x00EE = some .ret ∧
  decodeTableWord 16 0x1ABC = some (.jp 0xABC) ∧ decodeTableWord 16 0x3A5C = some (.seImm 0xA 0x5C) ∧
  decodeTableWord 16 0x5127 = some (.seReg 1 2 7) ∧ decodeTableWord 16 0x8AB5 = some (.subReg 0xA 0xB) ∧
  decodeTableWord 16 0xC30F = some (.rnd 3 0x0F) ∧ decodeTableWord 16 0xD125 = some (.drw 1 2 5) ∧
  decodeTableWord 16 0xE4A1 = some (.sknp 4) ∧ decodeTableWord 16 0xF265 = some (.loadRegs 2) ∧
  decodeTableWord 16 0x8009 = none

/-! ### The step around an instruction -/

/-- 30_encoding.md R86 to R89 (the order of its phases is D8): where a fetch is in range and the two bytes at `pc` decode
to `i`, a step is `exec i` of the state with `current_opcode` holding the word, then the tick unless it was fatal. -/
def Obligations.StepRunsTheInstructionAtPc : Prop :=
  ∀ (s : State) (i : Instr), s.pc.toNat ≤ 0xFFE →
    decodeBytes [s.byteAt s.pc.toNat, s.byteAt (s.pc.toNat + 1)] = .ok (i, []) →
    step s =
      match exec i (s.setOpcode (joinBytes (s.byteAt s.pc.toNat) (s.byteAt (s.pc.toNat + 1)))) with
      | .next t => .next (if t.failed then t else tick t)
      | .fault f => .fault f
      | .refused r => .refused r

/-- 60_exceptions.md R206 and 30_encoding.md R87, R88: a fetch above 0xFFE is fatal, records the first address at or
above 0x1000 (D17), and changes nothing else, `current_opcode` included (D10). -/
def Obligations.FetchOutOfRangeIsFatal : Prop :=
  ∀ s : State, 0xFFE < s.pc.toNat →
    step s = .next (fatalIn s (.outOfRangeAddress (if s.pc.toNat = 0xFFF then 0x1000 else s.pc.toNat) s.pc))

/-- 60_exceptions.md R202 (that the timers tick is D11): a word that decodes to nothing completes the step, advances by
2, reports the word, and changes nothing else but `current_opcode`, the timers and the beep. -/
def Obligations.IllegalWordIsReportedAndSkipped : Prop :=
  ∀ (s : State) (w : Word), fetchWord s = .ok w → (∀ i, decodeWord w ≠ .ok i) →
    ∃ t, step s = .next t ∧ t.pc = s.pc + 2 ∧ t.currentOpcode = w ∧ t.status = .decodeError w ∧
      t.dt.toNat = s.dt.toNat - 1 ∧ t.st.toNat = s.st.toNat - 1 ∧ (t.beep = true ↔ s.st.toNat = 1) ∧
      SameExcept [.pc, .opcode, .status, .delay, .sound, .beep] s t

/-- 60_exceptions.md R203, R209 (D10): a fatal step changes nothing but the report and, where the fetch succeeded,
`current_opcode`, which then holds the fetched word. -/
def Obligations.FatalStepIsRolledBackWhole : Prop :=
  ∀ s t : State, step s = .next t → t.failed = true →
    ∃ f, t = { s with
      currentOpcode := (match fetchWord s with | .ok w => w | .error _ => s.currentOpcode)
      status := .fatal f
      beep := false }

/-- 60_exceptions.md R203 (D10): the machine is not halted by a fatal error, and a step from the state it leaves raises
the same error and changes nothing. -/
def Obligations.FatalErrorRepeats : Prop :=
  ∀ s t : State, step s = .next t → t.failed = true → step t = .next t

/-- 60_exceptions.md R212, R213 (the place of the tick is D8, the steps that tick D9): after an instruction that was not
fatal the step counts both timers down to 0 and no further, and beeps exactly when the sound timer was 1. -/
def Obligations.CompletedStepTicksTheTimers : Prop :=
  ∀ (s u : State) (w : Word) (i : Instr), fetchWord s = .ok w → decodeWord w = .ok i →
    exec i (s.setOpcode w) = .next u → u.failed = false →
    ∃ t, step s = .next t ∧ t.dt.toNat = u.dt.toNat - 1 ∧ t.st.toNat = u.st.toNat - 1 ∧
      (t.beep = true ↔ u.st.toNat = 1) ∧ SameExcept [.delay, .sound, .beep] u t

/-- 10_state.md R31, R32: in every step that is not fatal the delay timer counts down by one unless FX15 wrote it, and
the sound timer unless FX18 wrote it; a written timer is counted down in the same step (D8). -/
def Obligations.TimersCountDownUnlessWritten : Prop :=
  ∀ s t : State, step s = .next t → t.failed = false →
    ∃ w, fetchWord s = .ok w ∧ t.currentOpcode = w ∧
      (∀ x, decodeWord w = .ok (.ldDtVx x) → t.dt.toNat = (s.reg x).toNat - 1) ∧
      ((∀ x, decodeWord w ≠ .ok (.ldDtVx x)) → t.dt.toNat = s.dt.toNat - 1) ∧
      (∀ x, decodeWord w = .ok (.ldStVx x) →
        t.st.toNat = (s.reg x).toNat - 1 ∧ (t.beep = true ↔ (s.reg x).toNat = 1)) ∧
      ((∀ x, decodeWord w ≠ .ok (.ldStVx x)) →
        t.st.toNat = s.st.toNat - 1 ∧ (t.beep = true ↔ s.st.toNat = 1))

/-! ### Rules over all instructions

They speak of every term of the syntax. What they say of SYS 0x0E0 and SYS 0x0EE, which no word stands for, is the model's
choice (log entry 12). -/

/-- 30_encoding.md R90: the program-counter policy of every instruction that is not rolled back, and of a word that is
no instruction (that BNNN is not masked is D23, the target of 00EE is C1; for SYS 0x0E0 and SYS 0x0EE log entry 12). -/
def Obligations.EveryInstructionFollowsItsPcPolicy : Prop :=
  (∀ (i : Instr) (s t : State), exec i s = .next t → t.failed = false → t.pc = policyPc i s) ∧
  (∀ (s t : State) (w : Word), fetchWord s = .ok w → (∀ i, decodeWord w ≠ .ok i) → step s = .next t →
    t.pc = s.pc + 2)

/-- 10_state.md R22, R23, R26, R28 to R33 and 20_memory.md R51: only the named instructions write each part of the
state. The draw count is the model's own (log entry 5). -/
def Obligations.OnlyTheNamedInstructionsWriteEachPart : Prop :=
  ∀ (i : Instr) (s t : State), exec i s = .next t → SameExcept ([.pc, .status, .beep] ++ writes i) s t

/-- 10_state.md R22 (that 8XY1 to 8XY3 leave `VF` is D6): a register that is no destination of the instruction keeps
its value. -/
def Obligations.OnlyDestinationRegistersChange : Prop :=
  ∀ (i : Instr) (s t : State) (k : Reg), exec i s = .next t → ¬ isDestination i k → t.reg k = s.reg k

/-- 20_memory.md R51, R57: an instruction stores to the bytes from `I` that R57 gives it and to no other. -/
def Obligations.OnlyTheStoredBytesChange : Prop :=
  ∀ (i : Instr) (s t : State) (a : Nat), exec i s = .next t →
    ¬ (s.i.toNat ≤ a ∧ a < s.i.toNat + storedBytes i) → t.byteAt a = s.byteAt a

/-- 10_state.md R33, "read by no instruction", and R32, "No instruction reads it": an instruction does the same whatever
`current_opcode` holds, and whatever the sound timer holds, which stays as it was unless FX18 writes it. For CXNN the two
executions compared are taken to draw the same byte, since they draw at the same count: the model's choice (log entry 5),
so of the hardware the statement says this for one random byte given to both. -/
def Obligations.OpcodeAndSoundTimerAreNeverRead : Prop :=
  ∀ (i : Instr) (s t : State), exec i s = .next t →
    (∀ w : Word, exec i (s.setOpcode w) = .next (t.setOpcode w)) ∧
    (∀ b : Byte, exec i (s.setSound b) = .next (match i with | .ldStVx _ => t | _ => t.setSound b))

/-- 10_state.md R30: an instruction other than EX9E, EXA1 and FX0A does the same whatever the keypad holds, and no
instruction changes the keypad. For CXNN the two executions compared are taken to draw the same byte, since they draw at
the same count: the model's choice (log entry 5), so of the hardware the statement says this for one random byte given to
both. -/
def Obligations.OnlyKeyInstructionsReadTheKeypad : Prop :=
  ∀ (i : Instr) (s t : State), exec i s = .next t →
    t.key = s.key ∧
    ((∀ x, i ≠ .skp x ∧ i ≠ .sknp x ∧ i ≠ .ldVxK x) →
      ∀ k : Vector Bool 16, exec i (s.setKeys k) = .next (t.setKeys k))

/-! ### Families 0x0 to 0x2 -/

/-- 40_family0-2_flow.md R101: CLS clears every cell, raises the draw flag, advances by 2, and changes nothing else. -/
def Obligations.ClearDisplayClearsEveryCell : Prop :=
  ∀ s : State, ∃ t, exec .cls s = .next t ∧ (∀ x y, t.disp.cell x y = false) ∧ t.drawFlag = true ∧
    t.pc = s.pc + 2 ∧ t.status = .ok ∧ SameExcept [.disp, .drawFlag, .pc, .status] s t

/-- 40_family0-2_flow.md R102 (C1; that the slot keeps its value is D20): RET pops the address of the call and goes to
the word after it; with the stack empty it is a fatal error that changes nothing. -/
def Obligations.ReturnGoesPastTheCall : Prop :=
  (∀ s : State, ∀ h : 0 < s.sp.val, ∃ t, exec .ret s = .next t ∧ t.sp.val = s.sp.val - 1 ∧
    t.pc = s.stack[s.sp.val - 1]'(by have := s.sp.isLt; omega) + 2 ∧ t.status = .ok ∧
    SameExcept [.sp, .pc, .status] s t) ∧
  (∀ s : State, s.sp.val = 0 → exec .ret s = .next (fatalIn s (.stackUnderflow s.pc)))

/-- 40_family0-2_flow.md R100 (D3, C4): SYS reports its own word as a decode error, advances by 2, and changes nothing
else. R100 and 30_encoding.md R75 leave out SYS 0x0E0 and SYS 0x0EE, whose words are CLS and RET: that `exec` reports the
word of these two terms as well is the model's choice (log entry 12). -/
def Obligations.SysReportsADecodeError : Prop :=
  ∀ (nnn : Addr) (s : State), ∃ t, exec (.sys nnn) s = .next t ∧ t.status = .decodeError (encode (.sys nnn)) ∧
    t.pc = s.pc + 2 ∧ SameExcept [.pc, .status] s t

/-- 40_family0-2_flow.md R103: JP goes to `NNN`, and changes nothing else. -/
def Obligations.JumpGoesToItsAddress : Prop :=
  ∀ (nnn : Addr) (s : State), ∃ t, exec (.jp nnn) s = .next t ∧ t.pc.toNat = nnn.toNat ∧ t.status = .ok ∧
    SameExcept [.pc, .status] s t

/-- 40_family0-2_flow.md R104: CALL pushes the address of its own word and goes to `NNN`; with the stack full it is a
fatal error that changes nothing. -/
def Obligations.CallPushesItsOwnAddress : Prop :=
  (∀ (nnn : Addr) (s : State), s.sp.val < 16 → ∃ t, exec (.call nnn) s = .next t ∧
    (∀ k : Fin 16, t.stack[k] = if k.val = s.sp.val then s.pc else s.stack[k]) ∧
    t.sp.val = s.sp.val + 1 ∧ t.pc.toNat = nnn.toNat ∧ t.status = .ok ∧
    SameExcept [.stack, .sp, .pc, .status] s t) ∧
  (∀ (nnn : Addr) (s : State), s.sp.val = 16 → exec (.call nnn) s = .next (fatalIn s (.stackOverflow s.pc)))

/-- The call and return round trip of 95_test_vectors.md T-L1-5 (40_family0-2_flow.md R102, R104; C1): a return from any
state that still has the stack the call left goes to the word after the call, and the stack pointer is as before it. -/
def Obligations.CallThenReturnComesBack : Prop :=
  ∀ (nnn : Addr) (s : State), s.sp.val < 16 → ∃ t, exec (.call nnn) s = .next t ∧
    ∀ u : State, u.sp = t.sp → u.stack = t.stack → ∃ r, exec .ret u = .next r ∧ r.pc = s.pc + 2 ∧ r.sp = s.sp

/-! ### Skips -/

/-- 41_skips.md R120, R121: the skips on an immediate compare `V[X]` with `NN`, add 4 on a skip and 2 otherwise, and
change nothing else. -/
def Obligations.ImmediateSkipsCompare : Prop :=
  ∀ (x : Reg) (nn : Byte) (s : State),
    (∃ t, exec (.seImm x nn) s = .next t ∧ t.pc = (if s.reg x = nn then s.pc + 4 else s.pc + 2) ∧ t.status = .ok ∧
      SameExcept [.pc, .status] s t) ∧
    (∃ t, exec (.sneImm x nn) s = .next t ∧ t.pc = (if s.reg x ≠ nn then s.pc + 4 else s.pc + 2) ∧ t.status = .ok ∧
      SameExcept [.pc, .status] s t)

/-- 41_skips.md R122, R123 (that `n` is not examined is D4): the skips on two registers, for every low nibble. -/
def Obligations.RegisterSkipsCompare : Prop :=
  ∀ (x y : Reg) (n : Nibble) (s : State),
    (∃ t, exec (.seReg x y n) s = .next t ∧ t.pc = (if s.reg x = s.reg y then s.pc + 4 else s.pc + 2) ∧
      t.status = .ok ∧ SameExcept [.pc, .status] s t) ∧
    (∃ t, exec (.sneReg x y n) s = .next t ∧ t.pc = (if s.reg x ≠ s.reg y then s.pc + 4 else s.pc + 2) ∧
      t.status = .ok ∧ SameExcept [.pc, .status] s t)

/-! ### Load and ALU -/

/-- 42_load_alu.md R130: `V[X]` takes `NN`, every other register keeps its value. -/
def Obligations.LoadImmediateSetsTheRegister : Prop :=
  ∀ (x : Reg) (nn : Byte) (s : State), ∃ t, exec (.ldImm x nn) s = .next t ∧
    (∀ k, t.reg k = if k = x then nn else s.reg k) ∧ t.pc = s.pc + 2 ∧ t.status = .ok ∧
    SameExcept [.regs, .pc, .status] s t

/-- 42_load_alu.md R131: `V[X]` takes the sum mod 256; `VF` is not written unless it is the destination. -/
def Obligations.AddImmediateWrapsWithoutFlag : Prop :=
  ∀ (x : Reg) (nn : Byte) (s : State), ∃ t, exec (.addImm x nn) s = .next t ∧
    (∀ k, (t.reg k).toNat = if k = x then ((s.reg x).toNat + nn.toNat) % 256 else (s.reg k).toNat) ∧
    t.pc = s.pc + 2 ∧ t.status = .ok ∧ SameExcept [.regs, .pc, .status] s t

/-- 42_load_alu.md R132: `V[X]` takes `V[Y]`. -/
def Obligations.CopyRegisterCopies : Prop :=
  ∀ (x y : Reg) (s : State), ∃ t, exec (.ldReg x y) s = .next t ∧
    (∀ k, t.reg k = if k = x then s.reg y else s.reg k) ∧ t.pc = s.pc + 2 ∧ t.status = .ok ∧
    SameExcept [.regs, .pc, .status] s t

/-- 42_load_alu.md R133 to R135, bit by bit (that `VF` is left alone is D6). -/
def Obligations.BitwiseOperationsWorkBitByBit : Prop :=
  ∀ (x y : Reg) (s : State),
    (∃ t, exec (.orReg x y) s = .next t ∧
      (∀ k j, (t.reg k).getLsbD j =
        if k = x then ((s.reg x).getLsbD j || (s.reg y).getLsbD j) else (s.reg k).getLsbD j) ∧
      t.pc = s.pc + 2 ∧ t.status = .ok ∧ SameExcept [.regs, .pc, .status] s t) ∧
    (∃ t, exec (.andReg x y) s = .next t ∧
      (∀ k j, (t.reg k).getLsbD j =
        if k = x then ((s.reg x).getLsbD j && (s.reg y).getLsbD j) else (s.reg k).getLsbD j) ∧
      t.pc = s.pc + 2 ∧ t.status = .ok ∧ SameExcept [.regs, .pc, .status] s t) ∧
    (∃ t, exec (.xorReg x y) s = .next t ∧
      (∀ k j, (t.reg k).getLsbD j =
        if k = x then ((s.reg x).getLsbD j != (s.reg y).getLsbD j) else (s.reg k).getLsbD j) ∧
      t.pc = s.pc + 2 ∧ t.status = .ok ∧ SameExcept [.regs, .pc, .status] s t)

/-- 42_load_alu.md R136, 10_state.md R39, R40 (D5 where X or Y is 15): the sum mod 256, and the carry in `VF`, which
wins where X is 15. -/
def Obligations.AddPutsTheCarryInVF : Prop :=
  ∀ (x y : Reg) (s : State), ∃ t, exec (.addReg x y) s = .next t ∧
    (∀ k, (t.reg k).toNat =
      if k = 15 then (if (s.reg x).toNat + (s.reg y).toNat > 255 then 1 else 0)
      else if k = x then ((s.reg x).toNat + (s.reg y).toNat) % 256 else (s.reg k).toNat) ∧
    t.pc = s.pc + 2 ∧ t.status = .ok ∧ SameExcept [.regs, .pc, .status] s t

/-- 42_load_alu.md R137, R139, 10_state.md R39, R40 (D5 where X or Y is 15): the wrapped difference, and not-borrow in
`VF`, for `V[X] - V[Y]` and for `V[Y] - V[X]`. -/
def Obligations.SubtractPutsNotBorrowInVF : Prop :=
  ∀ (x y : Reg) (s : State),
    (∃ t, exec (.subReg x y) s = .next t ∧
      (∀ k, (t.reg k).toNat =
        if k = 15 then (if (s.reg y).toNat > (s.reg x).toNat then 0 else 1)
        else if k = x then ((s.reg x).toNat + 256 - (s.reg y).toNat) % 256 else (s.reg k).toNat) ∧
      t.pc = s.pc + 2 ∧ t.status = .ok ∧ SameExcept [.regs, .pc, .status] s t) ∧
    (∃ t, exec (.subnReg x y) s = .next t ∧
      (∀ k, (t.reg k).toNat =
        if k = 15 then (if (s.reg x).toNat > (s.reg y).toNat then 0 else 1)
        else if k = x then ((s.reg y).toNat + 256 - (s.reg x).toNat) % 256 else (s.reg k).toNat) ∧
      t.pc = s.pc + 2 ∧ t.status = .ok ∧ SameExcept [.regs, .pc, .status] s t)

/-- 42_load_alu.md R138, R140, 10_state.md R40 (D5 where X is 15): the shifts move `V[X]` by one bit whatever `Y` is, and
`VF` takes the bit shifted out. -/
def Obligations.ShiftsMoveOneBitIntoVF : Prop :=
  ∀ (x y : Reg) (s : State),
    (∃ t, exec (.shr x y) s = .next t ∧
      (∀ k, (t.reg k).toNat =
        if k = 15 then (s.reg x).toNat % 2
        else if k = x then (s.reg x).toNat / 2 else (s.reg k).toNat) ∧
      t.pc = s.pc + 2 ∧ t.status = .ok ∧ SameExcept [.regs, .pc, .status] s t) ∧
    (∃ t, exec (.shl x y) s = .next t ∧
      (∀ k, (t.reg k).toNat =
        if k = 15 then (s.reg x).toNat / 128
        else if k = x then (s.reg x).toNat * 2 % 256 else (s.reg k).toNat) ∧
      t.pc = s.pc + 2 ∧ t.status = .ok ∧ SameExcept [.regs, .pc, .status] s t)

/-! ### Index, jump indexed, random -/

/-- 43_index_jump_random.md R150: `I` takes `NNN`. -/
def Obligations.LoadIndexSetsTheIndex : Prop :=
  ∀ (nnn : Addr) (s : State), ∃ t, exec (.ldI nnn) s = .next t ∧ t.i.toNat = nnn.toNat ∧ t.pc = s.pc + 2 ∧
    t.status = .ok ∧ SameExcept [.index, .pc, .status] s t

/-- 43_index_jump_random.md R151 (that the sum is not masked is D23): BNNN goes to `NNN + V[0]`. -/
def Obligations.IndexedJumpAddsV0 : Prop :=
  ∀ (nnn : Addr) (s : State), ∃ t, exec (.jpV0 nnn) s = .next t ∧ t.pc.toNat = nnn.toNat + (s.reg 0).toNat ∧
    t.status = .ok ∧ SameExcept [.pc, .status] s t

/-- 43_index_jump_random.md R152, 60_exceptions.md R216 (D15; log entry 5): `V[X]` takes the random byte of this draw
masked by `NN`, whatever byte that is, and every draw is a new one. -/
def Obligations.RandomByteIsMasked : Prop :=
  (∀ (x : Reg) (nn : Byte) (s : State), ∃ t, exec (.rnd x nn) s = .next t ∧
    (∀ k, t.reg k = if k = x then Config.randByte s.draws &&& nn else s.reg k) ∧
    (∀ j, nn.getLsbD j = false → (t.reg x).getLsbD j = false) ∧ t.draws = s.draws + 1 ∧
    t.pc = s.pc + 2 ∧ t.status = .ok ∧ SameExcept [.regs, .draws, .pc, .status] s t) ∧
  (∀ (r : Byte) (x : Reg) (nn : Byte) (s : State), ∃ t, rndWith r x nn s = .next t ∧
    (∀ k, t.reg k = if k = x then r &&& nn else s.reg k) ∧ t.pc = s.pc + 2 ∧ t.status = .ok ∧
    SameExcept [.regs, .pc, .status] s t)

/-! ### Draw -/

/-- 44_draw.md R160 to R162 (the modulus of the row is C3, the order of reads and the flag D5): a draw whose rows lie in
memory toggles exactly the cells its 1 bits land on, sets `VF` to 1 if one of them was set and to 0 if none was, raises
the draw flag, and changes nothing else. With `n = 0` there is no condition on `I`. -/
def Obligations.DrawTogglesTheCellsOfTheSprite : Prop :=
  ∀ (x y : Reg) (n : Nibble) (s : State), n.toNat = 0 ∨ s.i.toNat + n.toNat ≤ 0x1000 →
    ∃ t, exec (.drw x y n) s = .next t ∧
      (∀ px py, (t.disp.cell px py = true ↔ ¬ (s.disp.cell px py = true ↔ spriteLands s x y n px py))) ∧
      ((∃ px py, spriteLands s x y n px py ∧ s.disp.cell px py = true) → t.reg 15 = 1) ∧
      ((¬ ∃ px py, spriteLands s x y n px py ∧ s.disp.cell px py = true) → t.reg 15 = 0) ∧
      (∀ k, k ≠ 15 → t.reg k = s.reg k) ∧ t.drawFlag = true ∧ t.pc = s.pc + 2 ∧ t.status = .ok ∧
      SameExcept [.disp, .drawFlag, .regs, .pc, .status] s t

/-- 44_draw.md R162, 60_exceptions.md R206 (the recorded address is D17): a draw with a row at or above 0x1000 is a fatal
error that changes nothing. -/
def Obligations.DrawOutOfRangeIsFatal : Prop :=
  ∀ (x y : Reg) (n : Nibble) (s : State), 0 < n.toNat → 0x1000 < s.i.toNat + n.toNat →
    exec (.drw x y n) s = .next (fatalIn s (.outOfRangeAddress (max s.i.toNat 0x1000) s.pc))

/-- 44_draw.md R162, corner cases: drawing the same sprite twice at the same place restores the display. By the rule's
pseudocode the second draw collides exactly where the first turned a cell on, so when a 1 bit of the sprite lands on a
cell that was clear (log entry 8). The coordinate registers are not `VF`, which the first draw writes. -/
def Obligations.DrawingTwiceRestoresTheDisplay : Prop :=
  ∀ (x y : Reg) (n : Nibble) (s : State), x ≠ 15 → y ≠ 15 → n.toNat = 0 ∨ s.i.toNat + n.toNat ≤ 0x1000 →
    ∃ t u, exec (.drw x y n) s = .next t ∧ exec (.drw x y n) t = .next u ∧ u.disp = s.disp ∧
      ((∃ px py, spriteLands s x y n px py ∧ s.disp.cell px py = false) → u.reg 15 = 1) ∧
      ((¬ ∃ px py, spriteLands s x y n px py ∧ s.disp.cell px py = false) → u.reg 15 = 0)

/-! ### Keys -/

/-- 45_keys.md R170, R171 (the error is D13): the key skips test the key that the whole byte `V[X]` names, change nothing
else, and are a fatal error when it is 16 or more. -/
def Obligations.KeySkipsTestTheNamedKey : Prop :=
  (∀ (x : Reg) (s : State), ∀ h : (s.reg x).toNat < 16,
    (∃ t, exec (.skp x) s = .next t ∧ t.pc = (if s.key[(s.reg x).toNat] = true then s.pc + 4 else s.pc + 2) ∧
      t.status = .ok ∧ SameExcept [.pc, .status] s t) ∧
    (∃ t, exec (.sknp x) s = .next t ∧ t.pc = (if s.key[(s.reg x).toNat] = false then s.pc + 4 else s.pc + 2) ∧
      t.status = .ok ∧ SameExcept [.pc, .status] s t)) ∧
  (∀ (x : Reg) (s : State), 16 ≤ (s.reg x).toNat →
    exec (.skp x) s = .next (fatalIn s (.outOfRangeOperand (s.reg x) s.pc)) ∧
    exec (.sknp x) s = .next (fatalIn s (.outOfRangeOperand (s.reg x) s.pc)))

/-- 46_family_F.md R181 (the lowest key and level detection are D12): with a key pressed FX0A stores the lowest pressed
index and advances. -/
def Obligations.KeyWaitTakesTheLowestKey : Prop :=
  ∀ (x : Reg) (s : State) (k : Fin 16), s.key[k] = true → (∀ j : Fin 16, j < k → s.key[j] = false) →
    ∃ t, exec (.ldVxK x) s = .next t ∧ (∀ r, (t.reg r).toNat = if r = x then k.val else (s.reg r).toNat) ∧
      t.pc = s.pc + 2 ∧ t.status = .ok ∧ SameExcept [.regs, .pc, .status] s t

/-- 46_family_F.md R181, 60_exceptions.md R215 (the status is D27): with no key pressed FX0A completes with `Waiting` at
the same `pc`, and a step there writes only `current_opcode`, the timers and the result, so the next step polls again. -/
def Obligations.KeyWaitHoldsWhileNoKeyIsPressed : Prop :=
  ∀ (x : Reg) (s : State), (∀ k : Fin 16, s.key[k] = false) →
    (∃ t, exec (.ldVxK x) s = .next t ∧ t.status = .waiting ∧ SameExcept [.status] s t) ∧
    (fetchWord s = .ok (encode (.ldVxK x)) →
      ∃ t, step s = .next t ∧ t.status = .waiting ∧ t.pc = s.pc ∧ t.dt.toNat = s.dt.toNat - 1 ∧
        t.st.toNat = s.st.toNat - 1 ∧ fetchWord t = fetchWord s ∧
        SameExcept [.status, .opcode, .delay, .sound, .beep] s t)

/-! ### Family 0xF -/

/-- 46_family_F.md R180: `V[X]` takes the delay timer, as it was before this step's tick. -/
def Obligations.ReadDelayTimer : Prop :=
  ∀ (x : Reg) (s : State), ∃ t, exec (.ldVxDt x) s = .next t ∧ (∀ k, t.reg k = if k = x then s.dt else s.reg k) ∧
    t.pc = s.pc + 2 ∧ t.status = .ok ∧ SameExcept [.regs, .pc, .status] s t

/-- 46_family_F.md R182, R183: the timer takes `V[X]`; the tick that follows in the same step (D8) is stated by
TimersCountDownUnlessWritten. -/
def Obligations.WriteTimers : Prop :=
  ∀ (x : Reg) (s : State),
    (∃ t, exec (.ldDtVx x) s = .next t ∧ t.dt = s.reg x ∧ t.pc = s.pc + 2 ∧ t.status = .ok ∧
      SameExcept [.delay, .pc, .status] s t) ∧
    (∃ t, exec (.ldStVx x) s = .next t ∧ t.st = s.reg x ∧ t.pc = s.pc + 2 ∧ t.status = .ok ∧
      SameExcept [.sound, .pc, .status] s t)

/-- 46_family_F.md R184 (D24 where `I` is 0x1000; D5 where X is 15): `I` takes the low 12 bits of `I + V[X]`, and `VF`
whether the whole sum passes 0xFFF. -/
def Obligations.AddToIndexWrapsAtTwelveBits : Prop :=
  ∀ (x : Reg) (s : State), ∃ t, exec (.addI x) s = .next t ∧
    t.i.toNat = (s.i.toNat + (s.reg x).toNat) % 0x1000 ∧
    (t.reg 15).toNat = (if s.i.toNat + (s.reg x).toNat > 0xFFF then 1 else 0) ∧
    (∀ k, k ≠ 15 → t.reg k = s.reg k) ∧ t.pc = s.pc + 2 ∧ t.status = .ok ∧
    SameExcept [.index, .regs, .pc, .status] s t

/-- 46_family_F.md R185: `I` takes five times the low nibble of `V[X]`. -/
def Obligations.GlyphAddressOfTheLowNibble : Prop :=
  ∀ (x : Reg) (s : State), ∃ t, exec (.ldF x) s = .next t ∧ t.i.toNat = (s.reg x).toNat % 16 * 5 ∧
    t.pc = s.pc + 2 ∧ t.status = .ok ∧ SameExcept [.index, .pc, .status] s t

/-- 46_family_F.md R186: FX33 stores the hundreds, tens and ones of `V[X]` at `I`, `I + 1`, `I + 2` and nowhere else,
and leaves `I`; when `I + 2` is at or above 0x1000 it is a fatal error that writes nothing. -/
def Obligations.DecimalDigitsAreStored : Prop :=
  (∀ (x : Reg) (s : State), s.i.toNat + 2 < 0x1000 → ∃ t, exec (.ldB x) s = .next t ∧
    (t.byteAt s.i.toNat).toNat = (s.reg x).toNat / 100 ∧
    (t.byteAt (s.i.toNat + 1)).toNat = (s.reg x).toNat / 10 % 10 ∧
    (t.byteAt (s.i.toNat + 2)).toNat = (s.reg x).toNat % 10 ∧
    (∀ a, ¬ (s.i.toNat ≤ a ∧ a < s.i.toNat + 3) → t.byteAt a = s.byteAt a) ∧
    t.pc = s.pc + 2 ∧ t.status = .ok ∧ SameExcept [.mem, .pc, .status] s t) ∧
  (∀ (x : Reg) (s : State), 0x1000 ≤ s.i.toNat + 2 →
    exec (.ldB x) s = .next (fatalIn s (.outOfRangeAddress (max s.i.toNat 0x1000) s.pc)))

/-- 46_family_F.md R187 (that `I` is not masked is D23): FX55 stores `V[0]` to `V[X]` from `I` on and nowhere else, and
adds X + 1 to `I`; when `I + X` is at or above 0x1000 it is a fatal error that writes nothing. -/
def Obligations.RegistersAreDumped : Prop :=
  (∀ (x : Reg) (s : State), s.i.toNat + x.val < 0x1000 → ∃ t, exec (.storeRegs x) s = .next t ∧
    (∀ k : Reg, k ≤ x → t.byteAt (s.i.toNat + k.val) = s.reg k) ∧
    (∀ a, ¬ (s.i.toNat ≤ a ∧ a < s.i.toNat + x.val + 1) → t.byteAt a = s.byteAt a) ∧
    t.i.toNat = s.i.toNat + x.val + 1 ∧ t.pc = s.pc + 2 ∧ t.status = .ok ∧
    SameExcept [.mem, .index, .pc, .status] s t) ∧
  (∀ (x : Reg) (s : State), 0x1000 ≤ s.i.toNat + x.val →
    exec (.storeRegs x) s = .next (fatalIn s (.outOfRangeAddress (max s.i.toNat 0x1000) s.pc)))

/-- 46_family_F.md R188 (that `I` is not masked is D23): FX65 loads `V[0]` to `V[X]` from `I` on and no other register,
and adds X + 1 to `I`; when `I + X` is at or above 0x1000 it is a fatal error that loads nothing. -/
def Obligations.RegistersAreLoaded : Prop :=
  (∀ (x : Reg) (s : State), s.i.toNat + x.val < 0x1000 → ∃ t, exec (.loadRegs x) s = .next t ∧
    (∀ k : Reg, t.reg k = if k ≤ x then s.byteAt (s.i.toNat + k.val) else s.reg k) ∧
    t.i.toNat = s.i.toNat + x.val + 1 ∧ t.pc = s.pc + 2 ∧ t.status = .ok ∧
    SameExcept [.regs, .index, .pc, .status] s t) ∧
  (∀ (x : Reg) (s : State), 0x1000 ≤ s.i.toNat + x.val →
    exec (.loadRegs x) s = .next (fatalIn s (.outOfRangeAddress (max s.i.toNat 0x1000) s.pc)))

/-- A dump and a load from the same place give the registers back, whatever they held in between (46_family_F.md R187,
R188; 20_memory.md R63, "Every read returns the value of the most recent write to that address"). -/
def Obligations.DumpThenLoadGivesTheRegistersBack : Prop :=
  ∀ (x : Reg) (s : State), s.i.toNat + x.val < 0x1000 → ∃ t, exec (.storeRegs x) s = .next t ∧
    ∀ u : State, u.i = s.i → (∀ a, u.byteAt a = t.byteAt a) → ∃ r, exec (.loadRegs x) u = .next r ∧
      ∀ k : Reg, r.reg k = if k ≤ x then s.reg k else u.reg k

/-- 20_memory.md R66 (D22): bytes that FX55 stores are what a later fetch at their address reads, high byte first. -/
def Obligations.StoredCodeIsFetched : Prop :=
  ∀ (x : Reg) (s : State) (j k : Reg), s.i.toNat + x.val < 0x1000 → k.val = j.val + 1 → k ≤ x →
    ∃ t, exec (.storeRegs x) s = .next t ∧
      ∀ u : State, u.mem = t.mem → u.pc.toNat = s.i.toNat + j.val →
        ∃ w, fetchWord u = .ok w ∧ w.toNat = (s.reg j).toNat * 256 + (s.reg k).toNat

/-- 60_exceptions.md R226 (D28): at a jump to its own address a step changes only the timers, `current_opcode` and the
result it returns, and the machine is there again. -/
def Obligations.SelfJumpChangesOnlyTimersAndOpcode : Prop :=
  ∀ s : State, s.atSelfJump → ∃ t, step s = .next t ∧ t.status = .ok ∧ t.atSelfJump ∧
    SameExcept [.opcode, .delay, .sound, .status, .beep] s t

/-! ### The host's operations -/

/-- 70_reset_and_hazards.md R240, R241: after a host reset every field of the spec is as in the reset state, whatever the
state was. The rest is the model's choice: the status is Ok and there is no beep, as in the reset state (log entry 3), memory
is the list with no entry, which is how the model writes the reset contents down (log entry 2), and the draw count goes on
(log entry 5). -/
def Obligations.HostResetForgetsTheState : Prop :=
  ∀ s : State, SameExcept [.draws] State.reset (applyHostOp .reset s) ∧ (applyHostOp .reset s).mem = [] ∧
    (applyHostOp .reset s).draws = s.draws

/-- 70_reset_and_hazards.md R243, R244, 60_exceptions.md R201 (what load leaves alone is D18, that it rejects C5): an
image of at most 3584 bytes goes to 0x200 and changes nothing else; a longer one is rejected and changes nothing. -/
def Obligations.HostLoadCopiesOrRejects : Prop :=
  (∀ (bytes : List Byte) (s : State), bytes.length ≤ 3584 → ∃ t, hostLoad bytes s = .ok t ∧
    applyHostOp (.load bytes) s = t ∧
    (∀ k, k < bytes.length → t.byteAt (0x200 + k) = bytes.getD k 0) ∧
    (∀ a, ¬ (0x200 ≤ a ∧ a < 0x200 + bytes.length) → t.byteAt a = s.byteAt a) ∧ SameExcept [.mem] s t) ∧
  (∀ (bytes : List Byte) (s : State), 3584 < bytes.length →
    hostLoad bytes s = .error .exceedsCapacity ∧ applyHostOp (.load bytes) s = s)

/-- 60_exceptions.md R218 to R220: the host's snapshot replaces the keys and nothing else, and clearing the draw flag
clears it and nothing else. -/
def Obligations.HostWritesKeysAndDrawFlagOnly : Prop :=
  (∀ (k : Vector Bool 16) (s : State), (applyHostOp (.setKeys k) s).key = k ∧
    SameExcept [.key] s (applyHostOp (.setKeys k) s)) ∧
  (∀ s : State, (applyHostOp .clearDrawFlag s).drawFlag = false ∧
    SameExcept [.drawFlag] s (applyHostOp .clearDrawFlag s))
end

