-- ==== Sys2Proof/Laws/Decode.lean ====
section
/-! SUPPORT. The fields of the words the encoder builds, and the two bytes of a word. -/

namespace Sys2Proof

/-! ### Fields of a built word (R71) -/

/-- The bits of a nibble-wise concatenation, counted from the top field. -/
theorem fieldF_wordXYN (f : Nibble) (x y : Reg) (n : Nibble) : fieldF (wordXYN f x y n) = f := by
  unfold fieldF wordXYN regField
  ext i hi
  simp only [BitVec.getElem_extractLsb', BitVec.getLsbD_append]
  have h1 : ¬ 12 + i < 4 := by omega
  have h2 : ¬ 12 + i - 4 < 4 := by omega
  have h3 : ¬ 12 + i - 4 - 4 < 4 := by omega
  have h4 : 12 + i - 4 - 4 - 4 = i := by omega
  simp [h1, h2, h3, h4, BitVec.getLsbD_eq_getElem hi]

theorem fieldX_wordXYN (f : Nibble) (x y : Reg) (n : Nibble) : fieldX (wordXYN f x y n) = x := by
  suffices h : (wordXYN f x y n).extractLsb' 8 4 = regField x by
    simp only [fieldX, h, regField]
  unfold wordXYN
  ext i hi
  simp only [BitVec.getElem_extractLsb', BitVec.getLsbD_append]
  have h1 : ¬ 8 + i < 4 := by omega
  have h2 : ¬ 8 + i - 4 < 4 := by omega
  have h3 : 8 + i - 4 - 4 < 4 := by omega
  have h4 : 8 + i - 4 - 4 = i := by omega
  simp [h1, h2, h4, hi]

theorem fieldY_wordXYN (f : Nibble) (x y : Reg) (n : Nibble) : fieldY (wordXYN f x y n) = y := by
  suffices h : (wordXYN f x y n).extractLsb' 4 4 = regField y by
    simp only [fieldY, h, regField]
  unfold wordXYN
  ext i hi
  simp only [BitVec.getElem_extractLsb', BitVec.getLsbD_append]
  have h1 : ¬ 4 + i < 4 := by omega
  have h4 : 4 + i - 4 = i := by omega
  simp [h4, hi]

theorem fieldN_wordXYN (f : Nibble) (x y : Reg) (n : Nibble) : fieldN (wordXYN f x y n) = n := by
  unfold fieldN wordXYN
  ext i hi
  simp only [BitVec.getElem_extractLsb', BitVec.getLsbD_append]
  simp [hi]

theorem fieldF_wordXNN (f : Nibble) (x : Reg) (nn : Byte) : fieldF (wordXNN f x nn) = f := by
  unfold fieldF wordXNN
  ext i hi
  simp only [BitVec.getElem_extractLsb', BitVec.getLsbD_append]
  have h1 : ¬ 12 + i < 8 := by omega
  have h2 : ¬ 12 + i - 8 < 4 := by omega
  have h4 : 12 + i - 8 - 4 = i := by omega
  simp [h1, h2, h4, BitVec.getLsbD_eq_getElem hi]

theorem fieldX_wordXNN (f : Nibble) (x : Reg) (nn : Byte) : fieldX (wordXNN f x nn) = x := by
  suffices h : (wordXNN f x nn).extractLsb' 8 4 = regField x by
    simp only [fieldX, h, regField]
  unfold wordXNN
  ext i hi
  simp only [BitVec.getElem_extractLsb', BitVec.getLsbD_append]
  have h1 : ¬ 8 + i < 8 := by omega
  have h4 : 8 + i - 8 = i := by omega
  simp [h4, hi]

theorem fieldNN_wordXNN (f : Nibble) (x : Reg) (nn : Byte) : fieldNN (wordXNN f x nn) = nn := by
  unfold fieldNN wordXNN
  ext i hi
  simp only [BitVec.getElem_extractLsb', BitVec.getLsbD_append]
  simp [hi]

theorem fieldF_wordNNN (f : Nibble) (nnn : Addr) : fieldF (wordNNN f nnn) = f := by
  unfold fieldF wordNNN
  ext i hi
  simp only [BitVec.getElem_extractLsb', BitVec.getLsbD_append]
  have h1 : ¬ 12 + i < 12 := by omega
  have h4 : 12 + i - 12 = i := by omega
  simp [h4, BitVec.getLsbD_eq_getElem hi]

theorem fieldNNN_wordNNN (f : Nibble) (nnn : Addr) : fieldNNN (wordNNN f nnn) = nnn := by
  unfold fieldNNN wordNNN
  ext i hi
  simp only [BitVec.getElem_extractLsb', BitVec.getLsbD_append]
  simp [hi]

/-! ### A word is made of its fields -/

theorem wordXYN_fields (w : Word) : wordXYN (fieldF w) (fieldX w) (fieldY w) (fieldN w) = w := by
  change w.extractLsb' 12 4 ++ w.extractLsb' 8 4 ++ w.extractLsb' 4 4 ++ w.extractLsb' 0 4 = w
  ext i hi
  simp only [BitVec.getElem_append, BitVec.getElem_extractLsb']
  interval_cases i <;> simp

theorem wordXNN_fields (w : Word) : wordXNN (fieldF w) (fieldX w) (fieldNN w) = w := by
  change w.extractLsb' 12 4 ++ w.extractLsb' 8 4 ++ w.extractLsb' 0 8 = w
  ext i hi
  simp only [BitVec.getElem_append, BitVec.getElem_extractLsb']
  interval_cases i <;> simp

theorem wordNNN_fields (w : Word) : wordNNN (fieldF w) (fieldNNN w) = w := by
  unfold wordNNN fieldF fieldNNN
  ext i hi
  simp only [BitVec.getElem_append, BitVec.getElem_extractLsb']
  interval_cases i <;> simp

/-! ### The masks of the map in terms of the fields -/

theorem mask_F000 (w : Word) (f : Nibble) : w &&& 0xF000 = f ++ 0#12 ↔ fieldF w = f := by
  simp only [fieldF, BitVec.eq_of_getLsbD_eq_iff, BitVec.getLsbD_and, BitVec.getLsbD_append,
    BitVec.getLsbD_extractLsb']
  constructor
  · intro h i hi
    have := h (i + 12) (by omega)
    interval_cases i <;> simpa using this
  · intro h i hi
    have h0 := h 0 (by omega)
    have h1 := h 1 (by omega)
    have h2 := h 2 (by omega)
    have h3 := h 3 (by omega)
    interval_cases i <;> simp_all

theorem mask_F00F (w : Word) (f n : Nibble) : w &&& 0xF00F = f ++ 0#8 ++ n ↔ fieldF w = f ∧ fieldN w = n := by
  simp only [fieldF, fieldN, BitVec.eq_of_getLsbD_eq_iff, BitVec.getLsbD_and, BitVec.getLsbD_append,
    BitVec.getLsbD_extractLsb']
  constructor
  · intro h
    refine ⟨fun i hi => ?_, fun i hi => ?_⟩
    · have := h (i + 12) (by omega)
      interval_cases i <;> simpa using this
    · have := h i (by omega)
      interval_cases i <;> simpa using this
  · rintro ⟨h, g⟩ i hi
    have h0 := h 0 (by omega)
    have h1 := h 1 (by omega)
    have h2 := h 2 (by omega)
    have h3 := h 3 (by omega)
    have g0 := g 0 (by omega)
    have g1 := g 1 (by omega)
    have g2 := g 2 (by omega)
    have g3 := g 3 (by omega)
    interval_cases i <;> simp_all

theorem mask_F0FF (w : Word) (f : Nibble) (nn : Byte) : w &&& 0xF0FF = f ++ 0#4 ++ nn ↔ fieldF w = f ∧ fieldNN w = nn := by
  simp only [fieldF, fieldNN, BitVec.eq_of_getLsbD_eq_iff, BitVec.getLsbD_and, BitVec.getLsbD_append,
    BitVec.getLsbD_extractLsb']
  constructor
  · intro h
    refine ⟨fun i hi => ?_, fun i hi => ?_⟩
    · have := h (i + 12) (by omega)
      interval_cases i <;> simpa using this
    · have := h i (by omega)
      interval_cases i <;> simpa using this
  · rintro ⟨h, g⟩ i hi
    have h0 := h 0 (by omega)
    have h1 := h 1 (by omega)
    have h2 := h 2 (by omega)
    have h3 := h 3 (by omega)
    by_cases hi8 : i < 8
    · have := g i hi8
      interval_cases i <;> simp_all
    · interval_cases i <;> simp_all

theorem nibble_cases (f : Nibble) : f = 0 ∨ f = 1 ∨ f = 2 ∨ f = 3 ∨ f = 4 ∨ f = 5 ∨ f = 6 ∨ f = 7 ∨ f = 8 ∨
    f = 9 ∨ f = 10 ∨ f = 11 ∨ f = 12 ∨ f = 13 ∨ f = 14 ∨ f = 15 := by revert f; decide

/-! ### The decoder by family (R74 to R79) -/

theorem matches_whole (w p : Word) (b : Word → Instr) : (Row.mk 0xFFFF p b).matchesWord w = (w == p) := by
  have : w &&& 0xFFFF = w := BitVec.and_allOnes
  simp only [Row.matchesWord, this]

theorem matches_F000 (w p : Word) (b : Word → Instr) (f : Nibble) (hp : f ++ 0#12 = p) :
    (Row.mk 0xF000 p b).matchesWord w = (fieldF w == f) := by
  rw [Bool.eq_iff_iff]
  simp only [Row.matchesWord, beq_iff_eq, ← hp]
  exact mask_F000 w f

theorem matches_F00F (w p : Word) (b : Word → Instr) (f n : Nibble) (hp : f ++ 0#8 ++ n = p) :
    (Row.mk 0xF00F p b).matchesWord w = (fieldF w == f && fieldN w == n) := by
  rw [Bool.eq_iff_iff]
  simp only [Row.matchesWord, beq_iff_eq, Bool.and_eq_true, ← hp]
  exact mask_F00F w f n

theorem matches_F0FF (w p : Word) (b : Word → Instr) (f : Nibble) (nn : Byte) (hp : f ++ 0#4 ++ nn = p) :
    (Row.mk 0xF0FF p b).matchesWord w = (fieldF w == f && fieldNN w == nn) := by
  rw [Bool.eq_iff_iff]
  simp only [Row.matchesWord, beq_iff_eq, Bool.and_eq_true, ← hp]
  exact mask_F0FF w f nn

/-- Family 0x0 (R75). -/
def decodeFamily0 (w : Word) : Except Illegal Instr :=
  if w = 0x00E0 then .ok .cls else if w = 0x00EE then .ok .ret else .ok (.sys (fieldNNN w))

/-- Family 0x8 by its low nibble (R77). -/
def decodeFamily8 (w : Word) : Except Illegal Instr :=
  if fieldN w = 0x0 then .ok (.ldReg (fieldX w) (fieldY w))
  else if fieldN w = 0x1 then .ok (.orReg (fieldX w) (fieldY w))
  else if fieldN w = 0x2 then .ok (.andReg (fieldX w) (fieldY w))
  else if fieldN w = 0x3 then .ok (.xorReg (fieldX w) (fieldY w))
  else if fieldN w = 0x4 then .ok (.addReg (fieldX w) (fieldY w))
  else if fieldN w = 0x5 then .ok (.subReg (fieldX w) (fieldY w))
  else if fieldN w = 0x6 then .ok (.shr (fieldX w) (fieldY w))
  else if fieldN w = 0x7 then .ok (.subnReg (fieldX w) (fieldY w))
  else if fieldN w = 0xE then .ok (.shl (fieldX w) (fieldY w))
  else .error (.family8 (fieldN w))

/-- Family 0xE by its low byte (R78). -/
def decodeFamilyE (w : Word) : Except Illegal Instr :=
  if fieldNN w = 0x9E then .ok (.skp (fieldX w))
  else if fieldNN w = 0xA1 then .ok (.sknp (fieldX w))
  else .error (.familyE (fieldNN w))

/-- Family 0xF by its low byte (R79). -/
def decodeFamilyF (w : Word) : Except Illegal Instr :=
  if fieldNN w = 0x07 then .ok (.ldVxDt (fieldX w))
  else if fieldNN w = 0x0A then .ok (.ldVxK (fieldX w))
  else if fieldNN w = 0x15 then .ok (.ldDtVx (fieldX w))
  else if fieldNN w = 0x18 then .ok (.ldStVx (fieldX w))
  else if fieldNN w = 0x1E then .ok (.addI (fieldX w))
  else if fieldNN w = 0x29 then .ok (.ldF (fieldX w))
  else if fieldNN w = 0x33 then .ok (.ldB (fieldX w))
  else if fieldNN w = 0x55 then .ok (.storeRegs (fieldX w))
  else if fieldNN w = 0x65 then .ok (.loadRegs (fieldX w))
  else .error (.familyF (fieldNN w))

/-- The map as one choice by family and then by sub-selector. Proofs about the decoder split on the family
(`nibble_cases`) and rewrite with this, so that one small choice is left. -/
def decodeByFamily (w : Word) : Except Illegal Instr :=
  if fieldF w = 0x0 then decodeFamily0 w
  else if fieldF w = 0x1 then .ok (.jp (fieldNNN w))
  else if fieldF w = 0x2 then .ok (.call (fieldNNN w))
  else if fieldF w = 0x3 then .ok (.seImm (fieldX w) (fieldNN w))
  else if fieldF w = 0x4 then .ok (.sneImm (fieldX w) (fieldNN w))
  else if fieldF w = 0x5 then .ok (.seReg (fieldX w) (fieldY w) (fieldN w))
  else if fieldF w = 0x6 then .ok (.ldImm (fieldX w) (fieldNN w))
  else if fieldF w = 0x7 then .ok (.addImm (fieldX w) (fieldNN w))
  else if fieldF w = 0x8 then decodeFamily8 w
  else if fieldF w = 0x9 then .ok (.sneReg (fieldX w) (fieldY w) (fieldN w))
  else if fieldF w = 0xA then .ok (.ldI (fieldNNN w))
  else if fieldF w = 0xB then .ok (.jpV0 (fieldNNN w))
  else if fieldF w = 0xC then .ok (.rnd (fieldX w) (fieldNN w))
  else if fieldF w = 0xD then .ok (.drw (fieldX w) (fieldY w) (fieldN w))
  else if fieldF w = 0xE then decodeFamilyE w
  else decodeFamilyF w

/-- What the first row of a list that matches gives, one row at a time. -/
theorem find_row (w : Word) (r : Row) (rest : List Row) :
    (r :: rest).find? (fun r => r.matchesWord w) =
      if r.matchesWord w then some r else rest.find? (fun r => r.matchesWord w) := by
  rw [List.find?_cons]
  cases r.matchesWord w <;> rfl

/-- The decoder and the choice by family agree (R74). -/
theorem decodeWord_eq_decodeByFamily (w : Word) : decodeWord w = decodeByFamily w := by
  have hcls : w = 0x00E0 → fieldF w = 0 := by rintro rfl; rfl
  have hret : w = 0x00EE → fieldF w = 0 := by rintro rfl; rfl
  have hmap : opcodeMap.find? (fun r => r.matchesWord w) =
      (rowsFlow ++ (rowsImm ++ (rowsAlu ++ (rowsIndex ++ rowsKeysAndF)))).find? (fun r => r.matchesWord w) := rfl
  unfold decodeWord
  rw [hmap]
  simp only [rowsFlow, rowsImm, rowsAlu, rowsIndex, rowsKeysAndF, List.cons_append, List.nil_append, find_row,
    List.find?_nil, matches_whole, matches_F000 w 0x0000 _ 0x0 rfl, matches_F000 w 0x1000 _ 0x1 rfl,
    matches_F000 w 0x2000 _ 0x2 rfl, matches_F000 w 0x3000 _ 0x3 rfl, matches_F000 w 0x4000 _ 0x4 rfl,
    matches_F000 w 0x5000 _ 0x5 rfl, matches_F000 w 0x6000 _ 0x6 rfl, matches_F000 w 0x7000 _ 0x7 rfl,
    matches_F000 w 0x9000 _ 0x9 rfl, matches_F000 w 0xA000 _ 0xA rfl, matches_F000 w 0xB000 _ 0xB rfl,
    matches_F000 w 0xC000 _ 0xC rfl, matches_F000 w 0xD000 _ 0xD rfl,
    matches_F00F w 0x8000 _ 0x8 0x0 rfl, matches_F00F w 0x8001 _ 0x8 0x1 rfl, matches_F00F w 0x8002 _ 0x8 0x2 rfl,
    matches_F00F w 0x8003 _ 0x8 0x3 rfl, matches_F00F w 0x8004 _ 0x8 0x4 rfl, matches_F00F w 0x8005 _ 0x8 0x5 rfl,
    matches_F00F w 0x8006 _ 0x8 0x6 rfl, matches_F00F w 0x8007 _ 0x8 0x7 rfl, matches_F00F w 0x800E _ 0x8 0xE rfl,
    matches_F0FF w 0xE09E _ 0xE 0x9E rfl, matches_F0FF w 0xE0A1 _ 0xE 0xA1 rfl, matches_F0FF w 0xF007 _ 0xF 0x07 rfl,
    matches_F0FF w 0xF00A _ 0xF 0x0A rfl, matches_F0FF w 0xF015 _ 0xF 0x15 rfl, matches_F0FF w 0xF018 _ 0xF 0x18 rfl,
    matches_F0FF w 0xF01E _ 0xF 0x1E rfl, matches_F0FF w 0xF029 _ 0xF 0x29 rfl, matches_F0FF w 0xF033 _ 0xF 0x33 rfl,
    matches_F0FF w 0xF055 _ 0xF 0x55 rfl, matches_F0FF w 0xF065 _ 0xF 0x65 rfl, beq_iff_eq, Bool.and_eq_true]
  unfold decodeByFamily
  by_cases h0 : fieldF w = 0x0#4
  · by_cases h1 : w = 0x00E0#16
    · subst h1; rfl
    · by_cases h2 : w = 0x00EE#16
      · subst h2; rfl
      · simp [h0, h1, h2, decodeFamily0]
  · have h1 : w ≠ 0x00E0#16 := fun e => h0 (hcls e)
    have h2 : w ≠ 0x00EE#16 := fun e => h0 (hret e)
    rcases nibble_cases (fieldF w) with h | h | h | h | h | h | h | h | h | h | h | h | h | h | h | h
    case inl => exact absurd h h0
    all_goals simp [h, h1, h2, rejection, decodeFamily8, decodeFamilyE, decodeFamilyF]
    · rcases nibble_cases (fieldN w) with g | g | g | g | g | g | g | g | g | g | g | g | g | g | g | g <;> simp [g]
    all_goals split_ifs <;> rfl

/-! ### The fields of a word as numbers (R71) -/

theorem fieldF_toNat (w : Word) : (fieldF w).toNat = w.toNat / 4096 := by
  have := w.isLt
  simp only [fieldF, BitVec.extractLsb'_toNat, Nat.shiftRight_eq_div_pow]
  omega

theorem fieldX_val (w : Word) : (fieldX w).val = w.toNat / 256 % 16 := by
  simp [fieldX, Nat.shiftRight_eq_div_pow]

theorem fieldY_val (w : Word) : (fieldY w).val = w.toNat / 16 % 16 := by
  simp [fieldY, Nat.shiftRight_eq_div_pow]

theorem fieldN_toNat (w : Word) : (fieldN w).toNat = w.toNat % 16 := by
  simp [fieldN, BitVec.extractLsb'_toNat]

theorem fieldNN_toNat (w : Word) : (fieldNN w).toNat = w.toNat % 256 := by
  simp [fieldNN, BitVec.extractLsb'_toNat]

theorem fieldNNN_toNat (w : Word) : (fieldNNN w).toNat = w.toNat % 4096 := by
  simp [fieldNNN, BitVec.extractLsb'_toNat]

/-! ### Bytes of a word (R54) -/

/-- A word of two bytes as a number: the first byte is the high one. -/
theorem joinBytes_toNat (hi lo : Byte) : (joinBytes hi lo).toNat = hi.toNat * 256 + lo.toNat := by
  simp only [joinBytes, BitVec.toNat_append]
  rw [Nat.shiftLeft_eq, Nat.mul_comm, ← Nat.two_pow_add_eq_or_of_lt lo.isLt]

/-- The two bytes of a word make the word again. -/
theorem joinBytes_wordBytes (w : Word) : joinBytes (w.extractLsb' 8 8) (w.extractLsb' 0 8) = w := by
  unfold joinBytes
  ext i hi
  simp only [BitVec.getElem_append, BitVec.getElem_extractLsb']
  by_cases h : i < 8
  · simp [h, BitVec.getLsbD_eq_getElem hi]
  · have : 8 + (i - 8) = i := by omega
    simp [h, this, BitVec.getLsbD_eq_getElem hi]

@[simp] theorem length_wordBytes (w : Word) : (wordBytes w).length = 2 := rfl

/-- The decoder reads an instruction's own bytes as its word, whatever bytes follow. -/
theorem decodeBytes_wordBytes (w : Word) (rest : List Byte) :
    decodeBytes (wordBytes w ++ rest) =
      match decodeWord w with
      | .ok i => .ok (i, rest)
      | .error e => .error e := by
  show (match decodeWord (joinBytes (w.extractLsb' 8 8) (w.extractLsb' 0 8)) with
    | .ok i => Except.ok (i, rest)
    | .error e => Except.error e) = _
  rw [joinBytes_wordBytes]

end Sys2Proof
end

