-- ==== Sys2Proof/Laws/Display.lean ====
section
/-! SUPPORT. The laws of the display: one cell after a toggle and after a clear, and what a whole sprite does to the
cells and to the collision flag. -/

namespace Sys2Proof.Machine

@[simp] theorem cell_clearDisplay (x : Fin 64) (y : Fin 32) : clearDisplay.cell x y = false := by
  simp [clearDisplay, Display.cell]

/-- A cell after one cell was toggled. -/
theorem cell_toggle (d : Display) (x px : Fin 64) (y py : Fin 32) :
    (d.toggle x y).cell px py = (d.cell px py ^^ (py == y && px == x)) := by
  by_cases hy : py = y
  · subst hy
    by_cases hx : px = x
    · subst hx; simp [Display.toggle, Display.cell]
    · have : x.val ≠ px.val := fun e => hx (Fin.ext e.symm)
      simp [Display.toggle, Display.cell, beq_false_of_ne hx, this]
  · have : y.val ≠ py.val := fun e => hy (Fin.ext e.symm)
    simp [Display.toggle, Display.cell, beq_false_of_ne hy, this]

/-- Two displays with the same cells are the same. -/
theorem Display.ext_cell {d e : Display} (h : ∀ x y, d.cell x y = e.cell x y) : d = e := by
  apply Vector.ext
  intro y hy
  apply Vector.ext
  intro x hx
  exact h ⟨x, hx⟩ ⟨y, hy⟩

/-- Eight columns of a sprite land on eight different columns of the display (R162, corner cases). -/
theorem pixelColumn_inj (x0 : Byte) {c c' : Nat} (hc : c < 64) (hc' : c' < 64)
    (h : pixelColumn x0 c = pixelColumn x0 c') : c = c' := by
  simp only [pixelColumn, Config.dispW, Fin.mk.injEq] at h
  omega

/-- The rows of a sprite land on different rows of the display (R162, corner cases). -/
theorem pixelRow_inj (y0 : Byte) {r r' : Nat} (hr : r' < r + 32) (hr' : r < r' + 32)
    (h : pixelRow y0 r = pixelRow y0 r') : r = r' := by
  simp only [pixelRow, Config.dispH, Fin.mk.injEq] at h
  omega

/-! ### One row -/

/-- Some 1 bit among the columns `cs` of a sprite row lands on display column `px`. -/
def columnsCover (x0 row : Byte) (cs : List Nat) (px : Fin 64) : Bool :=
  cs.any fun c => spriteBit row c && px == pixelColumn x0 c

theorem foldl_drawPixel (x0 y0 row : Byte) (r : Nat) (cs : List Nat) (hcs : ∀ c ∈ cs, c < 64) (hn : cs.Nodup)
    (dc : Display × Bool) :
    (∀ px py, (cs.foldl (drawPixel x0 y0 row r) dc).1.cell px py =
      (dc.1.cell px py ^^ (py == pixelRow y0 r && columnsCover x0 row cs px))) ∧
    (cs.foldl (drawPixel x0 y0 row r) dc).2 =
      (dc.2 || cs.any fun c => spriteBit row c && dc.1.cell (pixelColumn x0 c) (pixelRow y0 r)) := by
  induction cs generalizing dc with
  | nil => simp [columnsCover]
  | cons c rest ih =>
    obtain ⟨hc, hn'⟩ := List.nodup_cons.mp hn
    obtain ⟨hcell, hcol⟩ := ih (fun e he => hcs e (by simp [he])) hn' (drawPixel x0 y0 row r dc c)
    have hne : ∀ e ∈ rest, pixelColumn x0 e ≠ pixelColumn x0 c := fun e he h =>
      hc (pixelColumn_inj x0 (hcs e (by simp [he])) (hcs c (by simp)) h ▸ he)
    simp only [List.foldl_cons]
    refine ⟨fun px py => ?_, ?_⟩
    · rw [hcell]
      by_cases hb : spriteBit row c
      · by_cases hp : px = pixelColumn x0 c
        · have : columnsCover x0 row rest px = false := by
            simp only [columnsCover, List.any_eq_false, Bool.and_eq_true, beq_iff_eq, not_and]
            intro e he _ h
            exact hne e he (h ▸ hp)
          rw [this, hp]
          simp [drawPixel, hb, cell_toggle, columnsCover]
        · simp [drawPixel, hb, cell_toggle, columnsCover, beq_false_of_ne hp]
      · simp [drawPixel, hb, columnsCover]
    · rw [hcol]
      by_cases hb : spriteBit row c
      · have : (rest.any fun e => spriteBit row e &&
            (drawPixel x0 y0 row r dc c).1.cell (pixelColumn x0 e) (pixelRow y0 r)) =
            rest.any fun e => spriteBit row e && dc.1.cell (pixelColumn x0 e) (pixelRow y0 r) := by
          rw [Bool.eq_iff_iff]
          simp only [List.any_eq_true]
          refine exists_congr fun e => and_congr_right fun he => ?_
          simp [drawPixel, hb, cell_toggle, beq_false_of_ne (hne e he)]
        rw [this]
        simp [drawPixel, hb, Bool.or_assoc]
      · simp [drawPixel, hb]

/-! ### The whole sprite -/

/-- Some 1 bit of the sprite rows `rows`, the first of them row `r`, lands on the cell at column `px`, row `py`. -/
def rowsCover (x0 y0 : Byte) (px : Fin 64) (py : Fin 32) : Nat → List Byte → Bool
  | _, [] => false
  | r, row :: rest =>
    (py == pixelRow y0 r && columnsCover x0 row (List.range 8) px) || rowsCover x0 y0 px py (r + 1) rest

theorem rowsCover_iff (x0 y0 : Byte) (px : Fin 64) (py : Fin 32) (r : Nat) (rows : List Byte) :
    rowsCover x0 y0 px py r rows = true ↔ ∃ k < rows.length, ∃ c < 8,
      spriteBit (rows.getD k 0) c = true ∧ px = pixelColumn x0 c ∧ py = pixelRow y0 (r + k) := by
  induction rows generalizing r with
  | nil => simp [rowsCover]
  | cons row rest ih =>
    simp only [rowsCover, columnsCover, Bool.or_eq_true, Bool.and_eq_true, beq_iff_eq, List.any_eq_true,
      List.mem_range, ih]
    constructor
    · rintro (⟨hy, c, hc, hb, hx⟩ | ⟨k, hk, c, hc, hb, hx, hy⟩)
      · exact ⟨0, by simp, c, hc, by simpa using hb, hx, by simpa using hy⟩
      · exact ⟨k + 1, by simpa using hk, c, hc, by simpa using hb, hx, by rw [hy]; congr 1; omega⟩
    · rintro ⟨k, hk, c, hc, hb, hx, hy⟩
      cases k with
      | zero => exact .inl ⟨by simpa using hy, c, hc, by simpa using hb, hx⟩
      | succ k => exact .inr ⟨k, by simpa using hk, c, hc, by simpa using hb, hx, by rw [hy]; congr 1; omega⟩

theorem drawRows_spec (x0 y0 : Byte) (r : Nat) (rows : List Byte) (hr : rows.length ≤ 32) (dc : Display × Bool) :
    (∀ px py, (drawRows x0 y0 r rows dc).1.cell px py = (dc.1.cell px py ^^ rowsCover x0 y0 px py r rows)) ∧
    ((drawRows x0 y0 r rows dc).2 = true ↔
      dc.2 = true ∨ ∃ px py, rowsCover x0 y0 px py r rows = true ∧ dc.1.cell px py = true) := by
  induction rows generalizing r dc with
  | nil => simp [drawRows, rowsCover]
  | cons row rest ih =>
    obtain ⟨hcell, hcol⟩ := foldl_drawPixel x0 y0 row r (List.range 8)
      (fun c hc => by have := List.mem_range.mp hc; omega) List.nodup_range dc
    obtain ⟨ihcell, ihcol⟩ := ih (r + 1) (by simp at hr; omega) (drawRow x0 y0 row r dc)
    have hdis : ∀ px py, py = pixelRow y0 r → rowsCover x0 y0 px py (r + 1) rest = false := by
      intro px py hy
      rw [Bool.eq_false_iff]
      intro h
      obtain ⟨k, hk, c, _, _, _, hy'⟩ := (rowsCover_iff ..).mp h
      simp only [List.length_cons] at hr
      have := pixelRow_inj y0 (r := r) (r' := r + 1 + k) (by omega) (by omega) (hy ▸ hy')
      omega
    refine ⟨fun px py => ?_, ?_⟩
    · rw [drawRows, ihcell, drawRow, hcell]
      by_cases hy : py = pixelRow y0 r
      · rw [hdis px py hy]; simp [rowsCover, hdis px py hy]
      · simp [rowsCover, beq_false_of_ne hy]
    · rw [drawRows, ihcol, drawRow, hcol]
      simp only [Bool.or_eq_true, List.any_eq_true, List.mem_range, Bool.and_eq_true, or_assoc]
      refine or_congr_right ?_
      constructor
      · rintro (⟨c, hc, hb, hset⟩ | ⟨px, py, hcov, hset⟩)
        · exact ⟨_, _, by simp only [rowsCover, columnsCover, Bool.or_eq_true, Bool.and_eq_true, beq_iff_eq,
            List.any_eq_true, List.mem_range]; exact .inl ⟨trivial, c, hc, hb, rfl⟩, hset⟩
        · rw [hcell] at hset
          by_cases hy : py = pixelRow y0 r
          · simp [hdis px py hy] at hcov
          · exact ⟨px, py, by simp [rowsCover, hcov], by simpa [beq_false_of_ne hy] using hset⟩
      · rintro ⟨px, py, hcov, hset⟩
        simp only [rowsCover, columnsCover, Bool.or_eq_true, Bool.and_eq_true, beq_iff_eq, List.any_eq_true,
          List.mem_range] at hcov
        rcases hcov with ⟨rfl, c, hc, hb, rfl⟩ | hcov
        · exact .inl ⟨c, hc, hb, hset⟩
        · refine .inr ⟨px, py, hcov, ?_⟩
          rw [hcell]
          have hy : py ≠ pixelRow y0 r := fun hy => by simp [hdis px py hy] at hcov
          simpa [beq_false_of_ne hy] using hset

/-- Every cell after a sprite was drawn: toggled exactly where some 1 bit of the sprite lands (R160 to R162). -/
theorem cell_drawSprite (x0 y0 : Byte) (rows : List Byte) (hr : rows.length ≤ 32) (d : Display) (px : Fin 64)
    (py : Fin 32) : (drawSprite x0 y0 rows d).1.cell px py = (d.cell px py ^^ rowsCover x0 y0 px py 0 rows) :=
  (drawRows_spec x0 y0 0 rows hr (d, false)).1 px py

/-- The collision of a sprite: some 1 bit of it lands on a cell that was set (R162). -/
theorem collision_drawSprite (x0 y0 : Byte) (rows : List Byte) (hr : rows.length ≤ 32) (d : Display) :
    (drawSprite x0 y0 rows d).2 = true ↔
      ∃ px py, rowsCover x0 y0 px py 0 rows = true ∧ d.cell px py = true := by
  simpa [drawSprite] using (drawRows_spec x0 y0 0 rows hr (d, false)).2

end Sys2Proof.Machine
end

