-- ==== Sys2Proof/Laws/State.lean ====
section
/-! SUPPORT. One lemma for each field and each update of the state: what the field holds after it. Later proofs cite
these and never unfold an update. -/

namespace Sys2Proof.Machine

/-! `State.setReg` -/

@[simp] theorem setReg_mem (s : State) (k : Reg) (b : Byte) : (s.setReg k b).mem = s.mem := rfl
@[simp] theorem setReg_v (s : State) (k : Reg) (b : Byte) : (s.setReg k b).v = s.v.set k b := rfl
@[simp] theorem setReg_i (s : State) (k : Reg) (b : Byte) : (s.setReg k b).i = s.i := rfl
@[simp] theorem setReg_pc (s : State) (k : Reg) (b : Byte) : (s.setReg k b).pc = s.pc := rfl
@[simp] theorem setReg_stack (s : State) (k : Reg) (b : Byte) : (s.setReg k b).stack = s.stack := rfl
@[simp] theorem setReg_sp (s : State) (k : Reg) (b : Byte) : (s.setReg k b).sp = s.sp := rfl
@[simp] theorem setReg_disp (s : State) (k : Reg) (b : Byte) : (s.setReg k b).disp = s.disp := rfl
@[simp] theorem setReg_drawFlag (s : State) (k : Reg) (b : Byte) : (s.setReg k b).drawFlag = s.drawFlag := rfl
@[simp] theorem setReg_key (s : State) (k : Reg) (b : Byte) : (s.setReg k b).key = s.key := rfl
@[simp] theorem setReg_dt (s : State) (k : Reg) (b : Byte) : (s.setReg k b).dt = s.dt := rfl
@[simp] theorem setReg_st (s : State) (k : Reg) (b : Byte) : (s.setReg k b).st = s.st := rfl
@[simp] theorem setReg_currentOpcode (s : State) (k : Reg) (b : Byte) : (s.setReg k b).currentOpcode = s.currentOpcode := rfl
@[simp] theorem setReg_status (s : State) (k : Reg) (b : Byte) : (s.setReg k b).status = s.status := rfl
@[simp] theorem setReg_beep (s : State) (k : Reg) (b : Byte) : (s.setReg k b).beep = s.beep := rfl
@[simp] theorem setReg_draws (s : State) (k : Reg) (b : Byte) : (s.setReg k b).draws = s.draws := rfl

/-! `State.setRegs` -/

@[simp] theorem setRegs_mem (s : State) (v : Vector Byte 16) : (s.setRegs v).mem = s.mem := rfl
@[simp] theorem setRegs_v (s : State) (v : Vector Byte 16) : (s.setRegs v).v = v := rfl
@[simp] theorem setRegs_i (s : State) (v : Vector Byte 16) : (s.setRegs v).i = s.i := rfl
@[simp] theorem setRegs_pc (s : State) (v : Vector Byte 16) : (s.setRegs v).pc = s.pc := rfl
@[simp] theorem setRegs_stack (s : State) (v : Vector Byte 16) : (s.setRegs v).stack = s.stack := rfl
@[simp] theorem setRegs_sp (s : State) (v : Vector Byte 16) : (s.setRegs v).sp = s.sp := rfl
@[simp] theorem setRegs_disp (s : State) (v : Vector Byte 16) : (s.setRegs v).disp = s.disp := rfl
@[simp] theorem setRegs_drawFlag (s : State) (v : Vector Byte 16) : (s.setRegs v).drawFlag = s.drawFlag := rfl
@[simp] theorem setRegs_key (s : State) (v : Vector Byte 16) : (s.setRegs v).key = s.key := rfl
@[simp] theorem setRegs_dt (s : State) (v : Vector Byte 16) : (s.setRegs v).dt = s.dt := rfl
@[simp] theorem setRegs_st (s : State) (v : Vector Byte 16) : (s.setRegs v).st = s.st := rfl
@[simp] theorem setRegs_currentOpcode (s : State) (v : Vector Byte 16) : (s.setRegs v).currentOpcode = s.currentOpcode := rfl
@[simp] theorem setRegs_status (s : State) (v : Vector Byte 16) : (s.setRegs v).status = s.status := rfl
@[simp] theorem setRegs_beep (s : State) (v : Vector Byte 16) : (s.setRegs v).beep = s.beep := rfl
@[simp] theorem setRegs_draws (s : State) (v : Vector Byte 16) : (s.setRegs v).draws = s.draws := rfl

/-! `State.setIndex` -/

@[simp] theorem setIndex_mem (s : State) (a : Word) : (s.setIndex a).mem = s.mem := rfl
@[simp] theorem setIndex_v (s : State) (a : Word) : (s.setIndex a).v = s.v := rfl
@[simp] theorem setIndex_i (s : State) (a : Word) : (s.setIndex a).i = a := rfl
@[simp] theorem setIndex_pc (s : State) (a : Word) : (s.setIndex a).pc = s.pc := rfl
@[simp] theorem setIndex_stack (s : State) (a : Word) : (s.setIndex a).stack = s.stack := rfl
@[simp] theorem setIndex_sp (s : State) (a : Word) : (s.setIndex a).sp = s.sp := rfl
@[simp] theorem setIndex_disp (s : State) (a : Word) : (s.setIndex a).disp = s.disp := rfl
@[simp] theorem setIndex_drawFlag (s : State) (a : Word) : (s.setIndex a).drawFlag = s.drawFlag := rfl
@[simp] theorem setIndex_key (s : State) (a : Word) : (s.setIndex a).key = s.key := rfl
@[simp] theorem setIndex_dt (s : State) (a : Word) : (s.setIndex a).dt = s.dt := rfl
@[simp] theorem setIndex_st (s : State) (a : Word) : (s.setIndex a).st = s.st := rfl
@[simp] theorem setIndex_currentOpcode (s : State) (a : Word) : (s.setIndex a).currentOpcode = s.currentOpcode := rfl
@[simp] theorem setIndex_status (s : State) (a : Word) : (s.setIndex a).status = s.status := rfl
@[simp] theorem setIndex_beep (s : State) (a : Word) : (s.setIndex a).beep = s.beep := rfl
@[simp] theorem setIndex_draws (s : State) (a : Word) : (s.setIndex a).draws = s.draws := rfl

/-! `State.setPc` -/

@[simp] theorem setPc_mem (s : State) (a : Word) : (s.setPc a).mem = s.mem := rfl
@[simp] theorem setPc_v (s : State) (a : Word) : (s.setPc a).v = s.v := rfl
@[simp] theorem setPc_i (s : State) (a : Word) : (s.setPc a).i = s.i := rfl
@[simp] theorem setPc_pc (s : State) (a : Word) : (s.setPc a).pc = a := rfl
@[simp] theorem setPc_stack (s : State) (a : Word) : (s.setPc a).stack = s.stack := rfl
@[simp] theorem setPc_sp (s : State) (a : Word) : (s.setPc a).sp = s.sp := rfl
@[simp] theorem setPc_disp (s : State) (a : Word) : (s.setPc a).disp = s.disp := rfl
@[simp] theorem setPc_drawFlag (s : State) (a : Word) : (s.setPc a).drawFlag = s.drawFlag := rfl
@[simp] theorem setPc_key (s : State) (a : Word) : (s.setPc a).key = s.key := rfl
@[simp] theorem setPc_dt (s : State) (a : Word) : (s.setPc a).dt = s.dt := rfl
@[simp] theorem setPc_st (s : State) (a : Word) : (s.setPc a).st = s.st := rfl
@[simp] theorem setPc_currentOpcode (s : State) (a : Word) : (s.setPc a).currentOpcode = s.currentOpcode := rfl
@[simp] theorem setPc_status (s : State) (a : Word) : (s.setPc a).status = s.status := rfl
@[simp] theorem setPc_beep (s : State) (a : Word) : (s.setPc a).beep = s.beep := rfl
@[simp] theorem setPc_draws (s : State) (a : Word) : (s.setPc a).draws = s.draws := rfl

/-! `State.setMem` -/

@[simp] theorem setMem_mem (s : State) (m : Memory) : (s.setMem m).mem = m := rfl
@[simp] theorem setMem_v (s : State) (m : Memory) : (s.setMem m).v = s.v := rfl
@[simp] theorem setMem_i (s : State) (m : Memory) : (s.setMem m).i = s.i := rfl
@[simp] theorem setMem_pc (s : State) (m : Memory) : (s.setMem m).pc = s.pc := rfl
@[simp] theorem setMem_stack (s : State) (m : Memory) : (s.setMem m).stack = s.stack := rfl
@[simp] theorem setMem_sp (s : State) (m : Memory) : (s.setMem m).sp = s.sp := rfl
@[simp] theorem setMem_disp (s : State) (m : Memory) : (s.setMem m).disp = s.disp := rfl
@[simp] theorem setMem_drawFlag (s : State) (m : Memory) : (s.setMem m).drawFlag = s.drawFlag := rfl
@[simp] theorem setMem_key (s : State) (m : Memory) : (s.setMem m).key = s.key := rfl
@[simp] theorem setMem_dt (s : State) (m : Memory) : (s.setMem m).dt = s.dt := rfl
@[simp] theorem setMem_st (s : State) (m : Memory) : (s.setMem m).st = s.st := rfl
@[simp] theorem setMem_currentOpcode (s : State) (m : Memory) : (s.setMem m).currentOpcode = s.currentOpcode := rfl
@[simp] theorem setMem_status (s : State) (m : Memory) : (s.setMem m).status = s.status := rfl
@[simp] theorem setMem_beep (s : State) (m : Memory) : (s.setMem m).beep = s.beep := rfl
@[simp] theorem setMem_draws (s : State) (m : Memory) : (s.setMem m).draws = s.draws := rfl

/-! `State.setStack` -/

@[simp] theorem setStack_mem (s : State) (k : Vector Word 16) (p : Fin 17) : (s.setStack k p).mem = s.mem := rfl
@[simp] theorem setStack_v (s : State) (k : Vector Word 16) (p : Fin 17) : (s.setStack k p).v = s.v := rfl
@[simp] theorem setStack_i (s : State) (k : Vector Word 16) (p : Fin 17) : (s.setStack k p).i = s.i := rfl
@[simp] theorem setStack_pc (s : State) (k : Vector Word 16) (p : Fin 17) : (s.setStack k p).pc = s.pc := rfl
@[simp] theorem setStack_stack (s : State) (k : Vector Word 16) (p : Fin 17) : (s.setStack k p).stack = k := rfl
@[simp] theorem setStack_sp (s : State) (k : Vector Word 16) (p : Fin 17) : (s.setStack k p).sp = p := rfl
@[simp] theorem setStack_disp (s : State) (k : Vector Word 16) (p : Fin 17) : (s.setStack k p).disp = s.disp := rfl
@[simp] theorem setStack_drawFlag (s : State) (k : Vector Word 16) (p : Fin 17) : (s.setStack k p).drawFlag = s.drawFlag := rfl
@[simp] theorem setStack_key (s : State) (k : Vector Word 16) (p : Fin 17) : (s.setStack k p).key = s.key := rfl
@[simp] theorem setStack_dt (s : State) (k : Vector Word 16) (p : Fin 17) : (s.setStack k p).dt = s.dt := rfl
@[simp] theorem setStack_st (s : State) (k : Vector Word 16) (p : Fin 17) : (s.setStack k p).st = s.st := rfl
@[simp] theorem setStack_currentOpcode (s : State) (k : Vector Word 16) (p : Fin 17) : (s.setStack k p).currentOpcode = s.currentOpcode := rfl
@[simp] theorem setStack_status (s : State) (k : Vector Word 16) (p : Fin 17) : (s.setStack k p).status = s.status := rfl
@[simp] theorem setStack_beep (s : State) (k : Vector Word 16) (p : Fin 17) : (s.setStack k p).beep = s.beep := rfl
@[simp] theorem setStack_draws (s : State) (k : Vector Word 16) (p : Fin 17) : (s.setStack k p).draws = s.draws := rfl

/-! `State.setDisplay` -/

@[simp] theorem setDisplay_mem (s : State) (d : Display) : (s.setDisplay d).mem = s.mem := rfl
@[simp] theorem setDisplay_v (s : State) (d : Display) : (s.setDisplay d).v = s.v := rfl
@[simp] theorem setDisplay_i (s : State) (d : Display) : (s.setDisplay d).i = s.i := rfl
@[simp] theorem setDisplay_pc (s : State) (d : Display) : (s.setDisplay d).pc = s.pc := rfl
@[simp] theorem setDisplay_stack (s : State) (d : Display) : (s.setDisplay d).stack = s.stack := rfl
@[simp] theorem setDisplay_sp (s : State) (d : Display) : (s.setDisplay d).sp = s.sp := rfl
@[simp] theorem setDisplay_disp (s : State) (d : Display) : (s.setDisplay d).disp = d := rfl
@[simp] theorem setDisplay_drawFlag (s : State) (d : Display) : (s.setDisplay d).drawFlag = true := rfl
@[simp] theorem setDisplay_key (s : State) (d : Display) : (s.setDisplay d).key = s.key := rfl
@[simp] theorem setDisplay_dt (s : State) (d : Display) : (s.setDisplay d).dt = s.dt := rfl
@[simp] theorem setDisplay_st (s : State) (d : Display) : (s.setDisplay d).st = s.st := rfl
@[simp] theorem setDisplay_currentOpcode (s : State) (d : Display) : (s.setDisplay d).currentOpcode = s.currentOpcode := rfl
@[simp] theorem setDisplay_status (s : State) (d : Display) : (s.setDisplay d).status = s.status := rfl
@[simp] theorem setDisplay_beep (s : State) (d : Display) : (s.setDisplay d).beep = s.beep := rfl
@[simp] theorem setDisplay_draws (s : State) (d : Display) : (s.setDisplay d).draws = s.draws := rfl

/-! `State.setDelay` -/

@[simp] theorem setDelay_mem (s : State) (b : Byte) : (s.setDelay b).mem = s.mem := rfl
@[simp] theorem setDelay_v (s : State) (b : Byte) : (s.setDelay b).v = s.v := rfl
@[simp] theorem setDelay_i (s : State) (b : Byte) : (s.setDelay b).i = s.i := rfl
@[simp] theorem setDelay_pc (s : State) (b : Byte) : (s.setDelay b).pc = s.pc := rfl
@[simp] theorem setDelay_stack (s : State) (b : Byte) : (s.setDelay b).stack = s.stack := rfl
@[simp] theorem setDelay_sp (s : State) (b : Byte) : (s.setDelay b).sp = s.sp := rfl
@[simp] theorem setDelay_disp (s : State) (b : Byte) : (s.setDelay b).disp = s.disp := rfl
@[simp] theorem setDelay_drawFlag (s : State) (b : Byte) : (s.setDelay b).drawFlag = s.drawFlag := rfl
@[simp] theorem setDelay_key (s : State) (b : Byte) : (s.setDelay b).key = s.key := rfl
@[simp] theorem setDelay_dt (s : State) (b : Byte) : (s.setDelay b).dt = b := rfl
@[simp] theorem setDelay_st (s : State) (b : Byte) : (s.setDelay b).st = s.st := rfl
@[simp] theorem setDelay_currentOpcode (s : State) (b : Byte) : (s.setDelay b).currentOpcode = s.currentOpcode := rfl
@[simp] theorem setDelay_status (s : State) (b : Byte) : (s.setDelay b).status = s.status := rfl
@[simp] theorem setDelay_beep (s : State) (b : Byte) : (s.setDelay b).beep = s.beep := rfl
@[simp] theorem setDelay_draws (s : State) (b : Byte) : (s.setDelay b).draws = s.draws := rfl

/-! `State.setSound` -/

@[simp] theorem setSound_mem (s : State) (b : Byte) : (s.setSound b).mem = s.mem := rfl
@[simp] theorem setSound_v (s : State) (b : Byte) : (s.setSound b).v = s.v := rfl
@[simp] theorem setSound_i (s : State) (b : Byte) : (s.setSound b).i = s.i := rfl
@[simp] theorem setSound_pc (s : State) (b : Byte) : (s.setSound b).pc = s.pc := rfl
@[simp] theorem setSound_stack (s : State) (b : Byte) : (s.setSound b).stack = s.stack := rfl
@[simp] theorem setSound_sp (s : State) (b : Byte) : (s.setSound b).sp = s.sp := rfl
@[simp] theorem setSound_disp (s : State) (b : Byte) : (s.setSound b).disp = s.disp := rfl
@[simp] theorem setSound_drawFlag (s : State) (b : Byte) : (s.setSound b).drawFlag = s.drawFlag := rfl
@[simp] theorem setSound_key (s : State) (b : Byte) : (s.setSound b).key = s.key := rfl
@[simp] theorem setSound_dt (s : State) (b : Byte) : (s.setSound b).dt = s.dt := rfl
@[simp] theorem setSound_st (s : State) (b : Byte) : (s.setSound b).st = b := rfl
@[simp] theorem setSound_currentOpcode (s : State) (b : Byte) : (s.setSound b).currentOpcode = s.currentOpcode := rfl
@[simp] theorem setSound_status (s : State) (b : Byte) : (s.setSound b).status = s.status := rfl
@[simp] theorem setSound_beep (s : State) (b : Byte) : (s.setSound b).beep = s.beep := rfl
@[simp] theorem setSound_draws (s : State) (b : Byte) : (s.setSound b).draws = s.draws := rfl

/-! `State.setOpcode` -/

@[simp] theorem setOpcode_mem (s : State) (w : Word) : (s.setOpcode w).mem = s.mem := rfl
@[simp] theorem setOpcode_v (s : State) (w : Word) : (s.setOpcode w).v = s.v := rfl
@[simp] theorem setOpcode_i (s : State) (w : Word) : (s.setOpcode w).i = s.i := rfl
@[simp] theorem setOpcode_pc (s : State) (w : Word) : (s.setOpcode w).pc = s.pc := rfl
@[simp] theorem setOpcode_stack (s : State) (w : Word) : (s.setOpcode w).stack = s.stack := rfl
@[simp] theorem setOpcode_sp (s : State) (w : Word) : (s.setOpcode w).sp = s.sp := rfl
@[simp] theorem setOpcode_disp (s : State) (w : Word) : (s.setOpcode w).disp = s.disp := rfl
@[simp] theorem setOpcode_drawFlag (s : State) (w : Word) : (s.setOpcode w).drawFlag = s.drawFlag := rfl
@[simp] theorem setOpcode_key (s : State) (w : Word) : (s.setOpcode w).key = s.key := rfl
@[simp] theorem setOpcode_dt (s : State) (w : Word) : (s.setOpcode w).dt = s.dt := rfl
@[simp] theorem setOpcode_st (s : State) (w : Word) : (s.setOpcode w).st = s.st := rfl
@[simp] theorem setOpcode_currentOpcode (s : State) (w : Word) : (s.setOpcode w).currentOpcode = w := rfl
@[simp] theorem setOpcode_status (s : State) (w : Word) : (s.setOpcode w).status = s.status := rfl
@[simp] theorem setOpcode_beep (s : State) (w : Word) : (s.setOpcode w).beep = s.beep := rfl
@[simp] theorem setOpcode_draws (s : State) (w : Word) : (s.setOpcode w).draws = s.draws := rfl

/-! `State.setStatus` -/

@[simp] theorem setStatus_mem (s : State) (x : Status) : (s.setStatus x).mem = s.mem := rfl
@[simp] theorem setStatus_v (s : State) (x : Status) : (s.setStatus x).v = s.v := rfl
@[simp] theorem setStatus_i (s : State) (x : Status) : (s.setStatus x).i = s.i := rfl
@[simp] theorem setStatus_pc (s : State) (x : Status) : (s.setStatus x).pc = s.pc := rfl
@[simp] theorem setStatus_stack (s : State) (x : Status) : (s.setStatus x).stack = s.stack := rfl
@[simp] theorem setStatus_sp (s : State) (x : Status) : (s.setStatus x).sp = s.sp := rfl
@[simp] theorem setStatus_disp (s : State) (x : Status) : (s.setStatus x).disp = s.disp := rfl
@[simp] theorem setStatus_drawFlag (s : State) (x : Status) : (s.setStatus x).drawFlag = s.drawFlag := rfl
@[simp] theorem setStatus_key (s : State) (x : Status) : (s.setStatus x).key = s.key := rfl
@[simp] theorem setStatus_dt (s : State) (x : Status) : (s.setStatus x).dt = s.dt := rfl
@[simp] theorem setStatus_st (s : State) (x : Status) : (s.setStatus x).st = s.st := rfl
@[simp] theorem setStatus_currentOpcode (s : State) (x : Status) : (s.setStatus x).currentOpcode = s.currentOpcode := rfl
@[simp] theorem setStatus_status (s : State) (x : Status) : (s.setStatus x).status = x := rfl
@[simp] theorem setStatus_beep (s : State) (x : Status) : (s.setStatus x).beep = s.beep := rfl
@[simp] theorem setStatus_draws (s : State) (x : Status) : (s.setStatus x).draws = s.draws := rfl

/-! `State.setBeep` -/

@[simp] theorem setBeep_mem (s : State) (b : Bool) : (s.setBeep b).mem = s.mem := rfl
@[simp] theorem setBeep_v (s : State) (b : Bool) : (s.setBeep b).v = s.v := rfl
@[simp] theorem setBeep_i (s : State) (b : Bool) : (s.setBeep b).i = s.i := rfl
@[simp] theorem setBeep_pc (s : State) (b : Bool) : (s.setBeep b).pc = s.pc := rfl
@[simp] theorem setBeep_stack (s : State) (b : Bool) : (s.setBeep b).stack = s.stack := rfl
@[simp] theorem setBeep_sp (s : State) (b : Bool) : (s.setBeep b).sp = s.sp := rfl
@[simp] theorem setBeep_disp (s : State) (b : Bool) : (s.setBeep b).disp = s.disp := rfl
@[simp] theorem setBeep_drawFlag (s : State) (b : Bool) : (s.setBeep b).drawFlag = s.drawFlag := rfl
@[simp] theorem setBeep_key (s : State) (b : Bool) : (s.setBeep b).key = s.key := rfl
@[simp] theorem setBeep_dt (s : State) (b : Bool) : (s.setBeep b).dt = s.dt := rfl
@[simp] theorem setBeep_st (s : State) (b : Bool) : (s.setBeep b).st = s.st := rfl
@[simp] theorem setBeep_currentOpcode (s : State) (b : Bool) : (s.setBeep b).currentOpcode = s.currentOpcode := rfl
@[simp] theorem setBeep_status (s : State) (b : Bool) : (s.setBeep b).status = s.status := rfl
@[simp] theorem setBeep_beep (s : State) (b : Bool) : (s.setBeep b).beep = b := rfl
@[simp] theorem setBeep_draws (s : State) (b : Bool) : (s.setBeep b).draws = s.draws := rfl

/-! `State.countDraw` -/

@[simp] theorem countDraw_mem (s : State) : s.countDraw.mem = s.mem := rfl
@[simp] theorem countDraw_v (s : State) : s.countDraw.v = s.v := rfl
@[simp] theorem countDraw_i (s : State) : s.countDraw.i = s.i := rfl
@[simp] theorem countDraw_pc (s : State) : s.countDraw.pc = s.pc := rfl
@[simp] theorem countDraw_stack (s : State) : s.countDraw.stack = s.stack := rfl
@[simp] theorem countDraw_sp (s : State) : s.countDraw.sp = s.sp := rfl
@[simp] theorem countDraw_disp (s : State) : s.countDraw.disp = s.disp := rfl
@[simp] theorem countDraw_drawFlag (s : State) : s.countDraw.drawFlag = s.drawFlag := rfl
@[simp] theorem countDraw_key (s : State) : s.countDraw.key = s.key := rfl
@[simp] theorem countDraw_dt (s : State) : s.countDraw.dt = s.dt := rfl
@[simp] theorem countDraw_st (s : State) : s.countDraw.st = s.st := rfl
@[simp] theorem countDraw_currentOpcode (s : State) : s.countDraw.currentOpcode = s.currentOpcode := rfl
@[simp] theorem countDraw_status (s : State) : s.countDraw.status = s.status := rfl
@[simp] theorem countDraw_beep (s : State) : s.countDraw.beep = s.beep := rfl
@[simp] theorem countDraw_draws (s : State) : s.countDraw.draws = s.draws + 1 := rfl

/-! `State.setKeys` -/

@[simp] theorem setKeys_mem (s : State) (k : Vector Bool 16) : (s.setKeys k).mem = s.mem := rfl
@[simp] theorem setKeys_v (s : State) (k : Vector Bool 16) : (s.setKeys k).v = s.v := rfl
@[simp] theorem setKeys_i (s : State) (k : Vector Bool 16) : (s.setKeys k).i = s.i := rfl
@[simp] theorem setKeys_pc (s : State) (k : Vector Bool 16) : (s.setKeys k).pc = s.pc := rfl
@[simp] theorem setKeys_stack (s : State) (k : Vector Bool 16) : (s.setKeys k).stack = s.stack := rfl
@[simp] theorem setKeys_sp (s : State) (k : Vector Bool 16) : (s.setKeys k).sp = s.sp := rfl
@[simp] theorem setKeys_disp (s : State) (k : Vector Bool 16) : (s.setKeys k).disp = s.disp := rfl
@[simp] theorem setKeys_drawFlag (s : State) (k : Vector Bool 16) : (s.setKeys k).drawFlag = s.drawFlag := rfl
@[simp] theorem setKeys_key (s : State) (k : Vector Bool 16) : (s.setKeys k).key = k := rfl
@[simp] theorem setKeys_dt (s : State) (k : Vector Bool 16) : (s.setKeys k).dt = s.dt := rfl
@[simp] theorem setKeys_st (s : State) (k : Vector Bool 16) : (s.setKeys k).st = s.st := rfl
@[simp] theorem setKeys_currentOpcode (s : State) (k : Vector Bool 16) : (s.setKeys k).currentOpcode = s.currentOpcode := rfl
@[simp] theorem setKeys_status (s : State) (k : Vector Bool 16) : (s.setKeys k).status = s.status := rfl
@[simp] theorem setKeys_beep (s : State) (k : Vector Bool 16) : (s.setKeys k).beep = s.beep := rfl
@[simp] theorem setKeys_draws (s : State) (k : Vector Bool 16) : (s.setKeys k).draws = s.draws := rfl

/-! `State.lowerDrawFlag` -/

@[simp] theorem lowerDrawFlag_mem (s : State) : s.lowerDrawFlag.mem = s.mem := rfl
@[simp] theorem lowerDrawFlag_v (s : State) : s.lowerDrawFlag.v = s.v := rfl
@[simp] theorem lowerDrawFlag_i (s : State) : s.lowerDrawFlag.i = s.i := rfl
@[simp] theorem lowerDrawFlag_pc (s : State) : s.lowerDrawFlag.pc = s.pc := rfl
@[simp] theorem lowerDrawFlag_stack (s : State) : s.lowerDrawFlag.stack = s.stack := rfl
@[simp] theorem lowerDrawFlag_sp (s : State) : s.lowerDrawFlag.sp = s.sp := rfl
@[simp] theorem lowerDrawFlag_disp (s : State) : s.lowerDrawFlag.disp = s.disp := rfl
@[simp] theorem lowerDrawFlag_drawFlag (s : State) : s.lowerDrawFlag.drawFlag = false := rfl
@[simp] theorem lowerDrawFlag_key (s : State) : s.lowerDrawFlag.key = s.key := rfl
@[simp] theorem lowerDrawFlag_dt (s : State) : s.lowerDrawFlag.dt = s.dt := rfl
@[simp] theorem lowerDrawFlag_st (s : State) : s.lowerDrawFlag.st = s.st := rfl
@[simp] theorem lowerDrawFlag_currentOpcode (s : State) : s.lowerDrawFlag.currentOpcode = s.currentOpcode := rfl
@[simp] theorem lowerDrawFlag_status (s : State) : s.lowerDrawFlag.status = s.status := rfl
@[simp] theorem lowerDrawFlag_beep (s : State) : s.lowerDrawFlag.beep = s.beep := rfl
@[simp] theorem lowerDrawFlag_draws (s : State) : s.lowerDrawFlag.draws = s.draws := rfl

/-! `State.setFlag` -/

@[simp] theorem setFlag_mem (s : State) (b : Bool) : (s.setFlag b).mem = s.mem := rfl
@[simp] theorem setFlag_v (s : State) (b : Bool) : (s.setFlag b).v = s.v.set Config.flagReg (flagByte b) := rfl
@[simp] theorem setFlag_i (s : State) (b : Bool) : (s.setFlag b).i = s.i := rfl
@[simp] theorem setFlag_pc (s : State) (b : Bool) : (s.setFlag b).pc = s.pc := rfl
@[simp] theorem setFlag_stack (s : State) (b : Bool) : (s.setFlag b).stack = s.stack := rfl
@[simp] theorem setFlag_sp (s : State) (b : Bool) : (s.setFlag b).sp = s.sp := rfl
@[simp] theorem setFlag_disp (s : State) (b : Bool) : (s.setFlag b).disp = s.disp := rfl
@[simp] theorem setFlag_drawFlag (s : State) (b : Bool) : (s.setFlag b).drawFlag = s.drawFlag := rfl
@[simp] theorem setFlag_key (s : State) (b : Bool) : (s.setFlag b).key = s.key := rfl
@[simp] theorem setFlag_dt (s : State) (b : Bool) : (s.setFlag b).dt = s.dt := rfl
@[simp] theorem setFlag_st (s : State) (b : Bool) : (s.setFlag b).st = s.st := rfl
@[simp] theorem setFlag_currentOpcode (s : State) (b : Bool) : (s.setFlag b).currentOpcode = s.currentOpcode := rfl
@[simp] theorem setFlag_status (s : State) (b : Bool) : (s.setFlag b).status = s.status := rfl
@[simp] theorem setFlag_beep (s : State) (b : Bool) : (s.setFlag b).beep = s.beep := rfl
@[simp] theorem setFlag_draws (s : State) (b : Bool) : (s.setFlag b).draws = s.draws := rfl

end Sys2Proof.Machine
end

