-- ==== Sys2Proof/Laws/Registers.lean ====
section
/-! SUPPORT. The laws of the registers, the return stack, the keypad and the flag values. -/

namespace Sys2Proof.Machine

/-! ### General registers -/

/-- A register read after a register write (R21). -/
@[simp] theorem reg_setReg (s : State) (j k : Reg) (b : Byte) : (s.setReg j b).reg k = if k = j then b else s.reg k := by
  by_cases h : k = j
  · subst h; simp [State.reg]
  · have : j.val ≠ k.val := fun e => h (Fin.ext e.symm)
    simp [State.reg, h, this]

@[simp] theorem reg_setFlag (s : State) (k : Reg) (b : Bool) :
    (s.setFlag b).reg k = if k = Config.flagReg then flagByte b else s.reg k := reg_setReg ..

@[simp] theorem reg_setRegs (s : State) (v : Vector Byte 16) (k : Reg) : (s.setRegs v).reg k = v[k] := rfl
@[simp] theorem reg_setIndex (s : State) (a : Word) (k : Reg) : (s.setIndex a).reg k = s.reg k := rfl
@[simp] theorem reg_setPc (s : State) (a : Word) (k : Reg) : (s.setPc a).reg k = s.reg k := rfl
@[simp] theorem reg_setMem (s : State) (m : Memory) (k : Reg) : (s.setMem m).reg k = s.reg k := rfl
@[simp] theorem reg_setStack (s : State) (a : Vector Word 16) (p : Fin 17) (k : Reg) :
    (s.setStack a p).reg k = s.reg k := rfl
@[simp] theorem reg_setDisplay (s : State) (d : Display) (k : Reg) : (s.setDisplay d).reg k = s.reg k := rfl
@[simp] theorem reg_setDelay (s : State) (b : Byte) (k : Reg) : (s.setDelay b).reg k = s.reg k := rfl
@[simp] theorem reg_setSound (s : State) (b : Byte) (k : Reg) : (s.setSound b).reg k = s.reg k := rfl
@[simp] theorem reg_setOpcode (s : State) (w : Word) (k : Reg) : (s.setOpcode w).reg k = s.reg k := rfl
@[simp] theorem reg_setStatus (s : State) (x : Status) (k : Reg) : (s.setStatus x).reg k = s.reg k := rfl
@[simp] theorem reg_setBeep (s : State) (b : Bool) (k : Reg) : (s.setBeep b).reg k = s.reg k := rfl
@[simp] theorem reg_countDraw (s : State) (k : Reg) : s.countDraw.reg k = s.reg k := rfl
@[simp] theorem reg_setKeys (s : State) (a : Vector Bool 16) (k : Reg) : (s.setKeys a).reg k = s.reg k := rfl
@[simp] theorem reg_lowerDrawFlag (s : State) (k : Reg) : s.lowerDrawFlag.reg k = s.reg k := rfl

/-- A register after bytes were loaded from register `j` up: a loaded byte inside their range, else as before. -/
theorem getElem_loadFrom (v : Vector Byte 16) (j : Nat) (bs : List Byte) (k : Fin 16) :
    (loadFrom v j bs)[k] = if j ≤ k.val ∧ k.val < j + bs.length then bs.getD (k.val - j) 0 else v[k] := by
  induction bs generalizing v j with
  | nil =>
    have : ¬ (j ≤ k.val ∧ k.val < j) := by omega
    simp [loadFrom, this]
  | cons b rest ih =>
    rw [loadFrom, ih, List.length_cons]
    rcases Nat.lt_trichotomy k.val j with h | h | h
    · rw [if_neg (by omega), if_neg (by omega)]
      simp [show j ≠ k.val by omega]
    · rw [if_neg (by omega), if_pos (by omega)]
      simp [h]
    · by_cases h1 : k.val < j + 1 + rest.length
      · rw [if_pos (by omega), if_pos (by omega), show k.val - j = (k.val - (j + 1)) + 1 by omega,
          List.getD_cons_succ]
      · rw [if_neg (by omega), if_neg (by omega)]
        simp [show j ≠ k.val by omega]

@[simp] theorem length_regsUpTo (s : State) (x : Reg) : (s.regsUpTo x).length = x.val + 1 := by
  simp [State.regsUpTo]

theorem getD_regsUpTo (s : State) (x k : Reg) (h : k ≤ x) : (s.regsUpTo x).getD k.val 0 = s.reg k := by
  have : k.val < x.val + 1 := Nat.lt_succ_of_le h
  simp [State.regsUpTo, State.reg, this]

/-! ### The return stack -/

/-- Every outcome of a push (R26, R204). -/
theorem pushStack_cases (s : State) (a : Word) :
    (∃ h : s.sp.val < 16, pushStack s a = .ok (s.setStack (s.stack.set s.sp.val a h) ⟨s.sp.val + 1, by omega⟩)) ∨
    (s.sp.val = 16 ∧ pushStack s a = .error (.stackOverflow s.pc)) := by
  by_cases h : s.sp.val < 16
  · exact .inl ⟨h, by simp [pushStack, h]⟩
  · exact .inr ⟨by omega, by simp [pushStack, h]⟩

/-- Every outcome of a pop (R26, R205). -/
theorem popStack_cases (s : State) :
    (∃ h : 0 < s.sp.val, popStack s = .ok (s.stack[s.sp.val - 1]'(by omega),
      s.setStack s.stack ⟨s.sp.val - 1, by omega⟩)) ∨
    (s.sp.val = 0 ∧ popStack s = .error (.stackUnderflow s.pc)) := by
  by_cases h : 0 < s.sp.val
  · exact .inl ⟨h, by simp [popStack, h]⟩
  · exact .inr ⟨by omega, by simp [popStack, h]⟩

/-! ### The keypad -/

/-- Every outcome of a key test (R170, R207). -/
theorem keyState_cases (s : State) (k : Byte) :
    (∃ h : k.toNat < 16, keyState s k = .ok s.key[k.toNat]) ∨
    (16 ≤ k.toNat ∧ keyState s k = .error (.outOfRangeOperand k s.pc)) := by
  by_cases h : k.toNat < 16
  · exact .inl ⟨h, by simp [keyState, h]⟩
  · exact .inr ⟨by omega, by simp [keyState, h]⟩

theorem mem_allRegs (k : Reg) : k ∈ allRegs := by revert k; decide

/-- No key is pressed exactly when FX0A finds none (R181). -/
theorem lowestKey_eq_none (key : Vector Bool 16) : lowestKey key = none ↔ ∀ k : Fin 16, key[k] = false := by
  simp [lowestKey, List.find?_eq_none, mem_allRegs]

/-- The key FX0A takes is pressed and no lower one is (R181). -/
theorem lowestKey_eq_some (key : Vector Bool 16) (k : Fin 16) :
    lowestKey key = some k ↔ key[k] = true ∧ ∀ j : Fin 16, j < k → key[j] = false := by
  have hp : allRegs.Pairwise (· < ·) := by decide
  constructor
  · intro h
    obtain ⟨hk, as, bs, heq, has⟩ := List.find?_eq_some_iff_append.mp h
    refine ⟨hk, fun j hj => ?_⟩
    have hmem : j ∈ as ++ k :: bs := heq ▸ mem_allRegs j
    rw [heq] at hp
    rcases List.mem_append.mp hmem with hm | hm
    · simpa using has j hm
    · rcases List.mem_cons.mp hm with rfl | hm
      · exact absurd hj (lt_irrefl _)
      · have := (List.pairwise_cons.mp (List.pairwise_append.mp hp).2.1).1 j hm
        exact absurd hj (not_lt.mpr this.le)
  · rintro ⟨hk, hlow⟩
    cases h : lowestKey key with
    | none => simp [(lowestKey_eq_none key).mp h k] at hk
    | some j =>
      have hj : key[j] = true := by simpa [lowestKey] using List.find?_some h
      rcases lt_trichotomy j k with hjk | rfl | hjk
      · simp [hlow j hjk] at hj
      · rfl
      · obtain ⟨_, as, bs, heq, has⟩ := List.find?_eq_some_iff_append.mp h
        have hmem : k ∈ as ++ j :: bs := heq ▸ mem_allRegs k
        rw [heq] at hp
        rcases List.mem_append.mp hmem with hm | hm
        · have := has k hm; simp [hk] at this
        · rcases List.mem_cons.mp hm with rfl | hm
          · exact absurd hjk (lt_irrefl _)
          · have := (List.pairwise_cons.mp (List.pairwise_append.mp hp).2.1).1 k hm
            exact absurd hjk (not_lt.mpr this.le)

/-! ### Flag values -/

@[simp] theorem carryOf_iff (a b : Byte) : carryOf a b = true ↔ 255 < a.toNat + b.toNat := by
  have := a.isLt
  have := b.isLt
  simp [carryOf]; omega

@[simp] theorem notBorrowOf_iff (a b : Byte) : notBorrowOf a b = true ↔ b.toNat ≤ a.toNat := by
  simp [notBorrowOf]

theorem flagByte_toNat (b : Bool) : (flagByte b).toNat = if b then 1 else 0 := by cases b <;> rfl

end Sys2Proof.Machine
end

