-- ==== Sys2Proof/Laws/Memory.lean ====
section
/-! SUPPORT. The laws of memory: what a read sees after a write, that the canonical form is kept, and what the checked
accesses answer. -/

namespace Sys2Proof.Machine

/-! ### One byte -/

theorem Memory.read_filter_same (m : Memory) (a : Nat) :
    Memory.read (m.filter (fun c => c.1 != a)) a = blankByte a := by
  induction m with
  | nil => rfl
  | cons c rest ih =>
    by_cases h : c.1 = a
    · simpa [h] using ih
    · have h' : ¬ a = c.1 := fun e => h e.symm
      simpa [h, Memory.read, h'] using ih

theorem Memory.read_filter_other (m : Memory) {a b : Nat} (hab : b ≠ a) :
    Memory.read (m.filter (fun c => c.1 != a)) b = Memory.read m b := by
  induction m with
  | nil => rfl
  | cons c rest ih =>
    by_cases h : c.1 = a
    · have hb : ¬ b = c.1 := by omega
      simpa [h, Memory.read, hab] using ih
    · by_cases hb : b = c.1 <;> simp_all [Memory.read]

theorem Memory.read_insertCell_other (m : Memory) (c : Host.Cell) {b : Nat} (hb : b ≠ c.1) :
    Memory.read (Memory.insertCell m c) b = Memory.read m b := by
  induction m with
  | nil => simp [Memory.insertCell, Memory.read, hb]
  | cons d rest ih =>
    simp only [Memory.insertCell]
    split
    · simp [Memory.read, hb]
    · simp [Memory.read, ih]

theorem Memory.read_insertCell_same (m : Memory) (c : Host.Cell) (hm : ∀ d ∈ m, d.1 ≠ c.1) :
    Memory.read (Memory.insertCell m c) c.1 = c.2 := by
  induction m with
  | nil => simp [Memory.insertCell, Memory.read]
  | cons d rest ih =>
    have hd : ¬ c.1 = d.1 := fun e => hm d (by simp) e.symm
    simp only [Memory.insertCell]
    split
    · simp [Memory.read]
    · simp [Memory.read, hd, ih (fun e he => hm e (by simp [he]))]

/-- A read after a write: the byte written at its address, and every other address as before (R52, R53, R63). -/
theorem Memory.read_write (m : Memory) (a b : Nat) (x : Byte) :
    (m.write a x).read b = if b = a then x else m.read b := by
  unfold Memory.write
  by_cases hx : x = blankByte a
  · by_cases hb : b = a
    · subst hb; simp [hx, Memory.read_filter_same]
    · simp [hx, hb, Memory.read_filter_other m hb]
  · by_cases hb : b = a
    · subst hb
      have := Memory.read_insertCell_same (m.filter (fun c => c.1 != b)) (b, x) (by simp)
      simpa [hx] using this
    · simp [hx, hb, Memory.read_insertCell_other _ (b := b) (a, x) hb, Memory.read_filter_other m hb]

@[simp] theorem Memory.read_write_same (m : Memory) (a : Nat) (x : Byte) : (m.write a x).read a = x := by
  simp [Memory.read_write]

theorem Memory.read_write_other (m : Memory) {a b : Nat} (x : Byte) (h : b ≠ a) :
    (m.write a x).read b = m.read b := by
  simp [Memory.read_write, h]

/-! ### The canonical form -/

theorem Memory.mem_insertCell (m : Memory) (c d : Host.Cell) :
    d ∈ Memory.insertCell m c ↔ d = c ∨ d ∈ m := by
  induction m with
  | nil => simp [Memory.insertCell]
  | cons e rest ih =>
    simp only [Memory.insertCell]
    split
    · simp
    · simp only [List.mem_cons, ih]; tauto

theorem Memory.pairwise_insertCell (m : Memory) (c : Host.Cell) (hm : m.Pairwise (fun d e => d.1 < e.1))
    (hc : ∀ d ∈ m, d.1 ≠ c.1) : (Memory.insertCell m c).Pairwise (fun d e => d.1 < e.1) := by
  induction m with
  | nil => simp [Memory.insertCell]
  | cons d rest ih =>
    obtain ⟨hd, hrest⟩ := List.pairwise_cons.mp hm
    simp only [Memory.insertCell]
    split
    · rename_i hlt
      refine List.pairwise_cons.mpr ⟨fun e he => ?_, hm⟩
      rcases List.mem_cons.mp he with rfl | he
      · exact hlt
      · exact Nat.lt_trans hlt (hd e he)
    · rename_i hlt
      have hne := hc d (by simp)
      refine List.pairwise_cons.mpr ⟨fun e he => ?_, ih hrest (fun e he => hc e (by simp [he]))⟩
      rcases (Memory.mem_insertCell rest c e).mp he with rfl | he
      · omega
      · exact hd e he

/-- Storing a byte keeps the canonical form. -/
theorem Memory.write_wf {m : Memory} (h : m.wf) {a : Nat} (ha : a < Config.memSize) (x : Byte) : (m.write a x).wf := by
  have hf : (m.filter (fun c => c.1 != a)).Pairwise (fun c d => c.1 < d.1) := h.1.filter _
  have hmem : ∀ c ∈ m.filter (fun c => c.1 != a), c.1 < Config.memSize ∧ c.2 ≠ blankByte c.1 :=
    fun c hc => h.2 c (List.mem_filter.mp hc).1
  unfold Memory.write
  by_cases hx : x = blankByte a
  · rw [if_pos hx]; exact ⟨hf, hmem⟩
  · simp only [hx, if_false]
    refine ⟨Memory.pairwise_insertCell _ _ hf (by simp), fun c hc => ?_⟩
    rcases (Memory.mem_insertCell _ _ c).mp hc with rfl | hc
    · exact ⟨ha, hx⟩
    · exact hmem c hc

/-- The empty memory, as reset leaves it, is in canonical form. -/
theorem Memory.nil_wf : Memory.wf [] := by decide

/-! ### Consecutive bytes -/

/-- A read after a store of consecutive bytes: the stored byte inside their range, and every other address as
before. -/
theorem Memory.read_writeList (m : Memory) (a b : Nat) (bs : List Byte) :
    (m.writeList a bs).read b = if a ≤ b ∧ b < a + bs.length then bs.getD (b - a) 0 else m.read b := by
  induction bs generalizing m a with
  | nil =>
    have : ¬ (a ≤ b ∧ b < a) := by omega
    simp [Memory.writeList, this]
  | cons x rest ih =>
    simp only [Memory.writeList, ih, Memory.read_write, List.length_cons]
    rcases Nat.lt_trichotomy b a with h | h | h
    · have h1 : ¬ (a + 1 ≤ b ∧ b < a + 1 + rest.length) := by omega
      have h2 : ¬ (a ≤ b ∧ b < a + (rest.length + 1)) := by omega
      have h3 : b ≠ a := by omega
      rw [if_neg h1, if_neg h2, if_neg h3]
    · subst h
      simp
    · have h3 : b ≠ a := by omega
      have e : b - a = (b - (a + 1)) + 1 := by omega
      by_cases h1 : b < a + 1 + rest.length
      · have h2 : a ≤ b ∧ b < a + (rest.length + 1) := by omega
        have h4 : a + 1 ≤ b ∧ b < a + 1 + rest.length := by omega
        rw [if_pos h4, if_pos h2, e, List.getD_cons_succ]
      · have h2 : ¬ (a ≤ b ∧ b < a + (rest.length + 1)) := by omega
        have h4 : ¬ (a + 1 ≤ b ∧ b < a + 1 + rest.length) := by omega
        rw [if_neg h4, if_neg h2, if_neg h3]

/-- Storing consecutive bytes inside memory keeps the canonical form. -/
theorem Memory.writeList_wf {m : Memory} (h : m.wf) {a : Nat} (bs : List Byte)
    (ha : a + bs.length ≤ Config.memSize) : (m.writeList a bs).wf := by
  induction bs generalizing m a with
  | nil => exact h
  | cons x rest ih =>
    simp only [List.length_cons] at ha
    exact ih (Memory.write_wf h (by omega) x) (by omega)

@[simp] theorem Memory.length_readList (m : Memory) (a n : Nat) : (m.readList a n).length = n := by
  simp [Memory.readList]

theorem Memory.getD_readList (m : Memory) (a n k : Nat) (h : k < n) : (m.readList a n).getD k 0 = m.read (a + k) := by
  simp [Memory.readList, h]

/-! ### The checked accesses -/

/-- When an access of `n` bytes from `base` is out of range, and what it records (R206). -/
theorem rangeError_eq_some (s : State) (base n : Nat) (h : 0 < n) (hr : Config.memSize < base + n) :
    rangeError s base n = some (.outOfRangeAddress (max base Config.memSize) s.pc) := by
  have : Config.memSize ≤ base + n - 1 := by omega
  simp [rangeError, h, this]

/-- An access that lies inside memory, or has no byte, has no error. -/
theorem rangeError_eq_none (s : State) (base n : Nat) (h : n = 0 ∨ base + n ≤ Config.memSize) :
    rangeError s base n = none := by
  have : ¬ (0 < n ∧ Config.memSize ≤ base + n - 1) := by omega
  simp [rangeError, this]

theorem readBytes_ok (s : State) (base n : Nat) (h : n = 0 ∨ base + n ≤ Config.memSize) :
    readBytes s base n = .ok (s.mem.readList base n) := by
  simp [readBytes, rangeError_eq_none s base n h]

theorem readBytes_error (s : State) (base n : Nat) (h : 0 < n) (hr : Config.memSize < base + n) :
    readBytes s base n = .error (.outOfRangeAddress (max base Config.memSize) s.pc) := by
  simp [readBytes, rangeError_eq_some s base n h hr]

theorem writeBytes_ok (s : State) (base : Nat) (bs : List Byte) (h : bs = [] ∨ base + bs.length ≤ Config.memSize) :
    writeBytes s base bs = .ok (s.setMem (s.mem.writeList base bs)) := by
  have h' : bs.length = 0 ∨ base + bs.length ≤ Config.memSize := by
    rcases h with rfl | h
    · exact .inl rfl
    · exact .inr h
  simp [writeBytes, rangeError_eq_none s base bs.length h']

theorem writeBytes_error (s : State) (base : Nat) (bs : List Byte) (h : bs ≠ [])
    (hr : Config.memSize < base + bs.length) :
    writeBytes s base bs = .error (.outOfRangeAddress (max base Config.memSize) s.pc) := by
  have : 0 < bs.length := List.length_pos_iff.mpr h
  simp [writeBytes, rangeError_eq_some s base bs.length this hr]

/-- Every outcome of a checked read. -/
theorem readBytes_cases (s : State) (base n : Nat) :
    ((n = 0 ∨ base + n ≤ Config.memSize) ∧ readBytes s base n = .ok (s.mem.readList base n)) ∨
    (0 < n ∧ Config.memSize < base + n ∧
      readBytes s base n = .error (.outOfRangeAddress (max base Config.memSize) s.pc)) := by
  by_cases h : n = 0 ∨ base + n ≤ Config.memSize
  · exact .inl ⟨h, readBytes_ok s base n h⟩
  · exact .inr ⟨by omega, by omega, readBytes_error s base n (by omega) (by omega)⟩

/-- Every outcome of a checked write. -/
theorem writeBytes_cases (s : State) (base : Nat) (bs : List Byte) (h : bs ≠ []) :
    (base + bs.length ≤ Config.memSize ∧ writeBytes s base bs = .ok (s.setMem (s.mem.writeList base bs))) ∨
    (Config.memSize < base + bs.length ∧
      writeBytes s base bs = .error (.outOfRangeAddress (max base Config.memSize) s.pc)) := by
  by_cases hr : base + bs.length ≤ Config.memSize
  · exact .inl ⟨hr, writeBytes_ok s base bs (.inr hr)⟩
  · exact .inr ⟨by omega, writeBytes_error s base bs h (by omega)⟩

end Sys2Proof.Machine
end

