-- ==== Sys2Proof/Laws/Step.lean ====
section
/-! SUPPORT. The laws of what surrounds an instruction: how it ends, the fetch, the timers, the end of a step. -/

namespace Sys2Proof.Machine

/-! ### How an instruction ends -/

theorem complete_eq (p : PcPolicy) (x : Status) (s : State) :
    complete p x s = .next ((s.setPc (applyPolicy p s.pc)).setStatus x) := rfl

theorem finish_eq (p : PcPolicy) (s : State) : finish p s = .next ((s.setPc (applyPolicy p s.pc)).setStatus .ok) := rfl

theorem raiseFatal_eq (f : Fault) (s : State) : raiseFatal f s = .next ((s.setStatus (.fatal f)).setBeep false) := rfl

@[simp] theorem applyPolicy_skipIf (b : Bool) (pc : Word) :
    applyPolicy (skipIf b) pc = if b then pc + 4 else pc + 2 := by cases b <;> rfl

@[simp] theorem orFatal_ok {α : Type} (a : α) (s : State) (k : α → Host.Outcome State Fault Refusal) :
    orFatal (.ok a) s k = k a := rfl

@[simp] theorem orFatal_error {α : Type} (f : Fault) (s : State) (k : α → Host.Outcome State Fault Refusal) :
    orFatal (.error f) s k = raiseFatal f s := rfl

/-! ### The fetch (R87) -/

/-- Every outcome of a fetch: the two bytes at `pc`, or the first address at or above `MEM_SIZE`. -/
theorem fetchWord_cases (s : State) :
    (s.pc.toNat ≤ 0xFFE ∧ fetchWord s = .ok (joinBytes (s.byteAt s.pc.toNat) (s.byteAt (s.pc.toNat + 1)))) ∨
    (0xFFE < s.pc.toNat ∧ fetchWord s = .error (.outOfRangeAddress (max s.pc.toNat Config.memSize) s.pc)) := by
  rcases readBytes_cases s s.pc.toNat 2 with ⟨h, hr⟩ | ⟨_, h, hr⟩
  · refine .inl ⟨by simp [Config.memSize] at h; omega, ?_⟩
    simp only [fetchWord, hr]
    rw [Memory.getD_readList _ _ _ _ (by omega), Memory.getD_readList _ _ _ _ (by omega)]
    rfl
  · exact .inr ⟨by simp only [Config.memSize] at h; omega, by simp only [fetchWord, hr]⟩

theorem fetchWord_ok_iff (s : State) (w : Word) :
    fetchWord s = .ok w ↔
      s.pc.toNat ≤ 0xFFE ∧ w = joinBytes (s.byteAt s.pc.toNat) (s.byteAt (s.pc.toNat + 1)) := by
  rcases fetchWord_cases s with ⟨h, hf⟩ | ⟨h, hf⟩
  · rw [hf]; simp [h, eq_comm]
  · rw [hf]; simp; omega

/-- What a fetch reads: `pc` and memory, nothing else. -/
theorem fetchWord_congr {s t : State} (hpc : t.pc = s.pc) (hmem : t.mem = s.mem) : fetchWord t = fetchWord s := by
  simp only [fetchWord, readBytes, rangeError, hpc, hmem]

/-! ### The timers (R212) -/

theorem countDown_toNat (t : Byte) : (countDown t).toNat = t.toNat - 1 := by
  unfold countDown
  split
  · rename_i h; subst h; rfl
  · rename_i h
    have h0 : t.toNat ≠ 0 := fun e => h (BitVec.eq_of_toNat_eq (by simpa using e))
    have := t.isLt
    simp [BitVec.toNat_sub]; omega

theorem tick_eq (s : State) :
    tick s = { s with beep := s.st == 1, dt := countDown s.dt, st := countDown s.st } := rfl

/-! The fields after a tick. By `simp`, not by `rfl`: `rfl` would compare the two states whole. -/

@[simp] theorem tick_mem (s : State) : (tick s).mem = s.mem := by simp [tick]
@[simp] theorem tick_v (s : State) : (tick s).v = s.v := by simp [tick]
@[simp] theorem tick_i (s : State) : (tick s).i = s.i := by simp [tick]
@[simp] theorem tick_pc (s : State) : (tick s).pc = s.pc := by simp [tick]
@[simp] theorem tick_stack (s : State) : (tick s).stack = s.stack := by simp [tick]
@[simp] theorem tick_sp (s : State) : (tick s).sp = s.sp := by simp [tick]
@[simp] theorem tick_disp (s : State) : (tick s).disp = s.disp := by simp [tick]
@[simp] theorem tick_drawFlag (s : State) : (tick s).drawFlag = s.drawFlag := by simp [tick]
@[simp] theorem tick_key (s : State) : (tick s).key = s.key := by simp [tick]
@[simp] theorem tick_currentOpcode (s : State) : (tick s).currentOpcode = s.currentOpcode := by simp [tick]
@[simp] theorem tick_status (s : State) : (tick s).status = s.status := by simp [tick]
@[simp] theorem tick_draws (s : State) : (tick s).draws = s.draws := by simp [tick]
@[simp] theorem tick_dt (s : State) : (tick s).dt = countDown s.dt := by simp [tick]
@[simp] theorem tick_st (s : State) : (tick s).st = countDown s.st := by simp [tick]
@[simp] theorem tick_beep (s : State) : (tick s).beep = (s.st == 1) := by simp [tick]
@[simp] theorem reg_tick (s : State) (k : Reg) : (tick s).reg k = s.reg k := by simp [tick, State.reg]
@[simp] theorem byteAt_tick (s : State) (a : Nat) : (tick s).byteAt a = s.byteAt a := by simp [tick, State.byteAt]

/-! ### The end of a step -/

theorem endStep_next (s : State) :
    endStep (.next s) = .next (if s.status.isFatal then s else tick s) := by
  simp only [endStep]; split <;> rfl

/-- Everything a step that answers a next state can have done: a failed fetch, a report of a word that is no
instruction, or one instruction. -/
theorem step_cases {s t : State} (h : step s = .next t) :
    (∃ f, fetchWord s = .error f ∧ t = (s.setStatus (.fatal f)).setBeep false) ∨
    (∃ w e, fetchWord s = .ok w ∧ decodeWord w = .error e ∧
      t = tick (((s.setOpcode w).setPc (s.pc + 2)).setStatus (.decodeError w))) ∨
    (∃ w i u, fetchWord s = .ok w ∧ decodeWord w = .ok i ∧ exec i (s.setOpcode w) = .next u ∧
      t = if u.status.isFatal then u else tick u) := by
  unfold step at h
  split at h
  · rename_i f hf
    injection h with h
    exact .inl ⟨f, hf, h.symm⟩
  · rename_i w hw
    split at h
    · rename_i e he
      rw [reportDecodeError, complete_eq, endStep_next] at h
      injection h with h
      exact .inr (.inl ⟨w, e, hw, he, h.symm⟩)
    · rename_i i hi
      cases hu : exec i (latchOpcode w s) with
      | next u =>
        rw [hu, endStep_next] at h
        injection h with h
        exact .inr (.inr ⟨w, i, u, hw, hi, hu, h.symm⟩)
      | fault f => rw [hu] at h; exact nomatch h
      | refused r => rw [hu] at h; exact nomatch h

end Sys2Proof.Machine
end

