-- ==== Sys2Proof/Laws/Exec.lean ====
section
/-! SUPPORT. One spec lemma for each instruction: what `exec` answers, in the terms of the shared operations. An
instruction with a check has one lemma for each of its two outcomes. -/

namespace Sys2Proof.Machine

/-- How an instruction that only advances leaves a state: the program counter and the status. -/
theorem finish_advance2 (s : State) : finish .advance2 s = .next ((s.setPc (s.pc + 2)).setStatus .ok) := rfl

/-! ### Families 0x0 to 0x2 -/

theorem exec_cls (s : State) : exec .cls s = finish .advance2 (s.setDisplay clearDisplay) := rfl

theorem exec_sys (nnn : Addr) (s : State) :
    exec (.sys nnn) s = .next ((s.setPc (s.pc + 2)).setStatus (.decodeError (sysWord nnn))) := rfl

theorem exec_jp (nnn : Addr) (s : State) :
    exec (.jp nnn) s = .next ((s.setPc (addrOperand nnn)).setStatus .ok) := rfl

theorem exec_ret_full (s : State) (h : 0 < s.sp.val) :
    exec .ret s = .next (((s.setStack s.stack ⟨s.sp.val - 1, by omega⟩).setPc
      ((s.stack[s.sp.val - 1]'(by omega)) + 2)).setStatus .ok) := by
  rcases popStack_cases s with ⟨h', hp⟩ | ⟨h', _⟩
  · simp [exec, execRet, hp, finish_eq, applyPolicy]
  · omega

theorem exec_ret_empty (s : State) (h : s.sp.val = 0) :
    exec .ret s = .next ((s.setStatus (.fatal (.stackUnderflow s.pc))).setBeep false) := by
  rcases popStack_cases s with ⟨h', _⟩ | ⟨_, hp⟩
  · omega
  · simp [exec, execRet, hp, raiseFatal_eq]

theorem exec_call_free (nnn : Addr) (s : State) (h : s.sp.val < 16) :
    exec (.call nnn) s = .next (((s.setStack (s.stack.set s.sp.val s.pc h) ⟨s.sp.val + 1, by omega⟩).setPc
      (addrOperand nnn)).setStatus .ok) := by
  rcases pushStack_cases s s.pc with ⟨h', hp⟩ | ⟨h', _⟩
  · simp [exec, execCall, hp, finish_eq, applyPolicy]
  · omega

theorem exec_call_full (nnn : Addr) (s : State) (h : s.sp.val = 16) :
    exec (.call nnn) s = .next ((s.setStatus (.fatal (.stackOverflow s.pc))).setBeep false) := by
  rcases pushStack_cases s s.pc with ⟨h', _⟩ | ⟨_, hp⟩
  · omega
  · simp [exec, execCall, hp, raiseFatal_eq]

/-! ### Families 0x3 to 0x9 -/

theorem exec_seImm (x : Reg) (nn : Byte) (s : State) : exec (.seImm x nn) s =
    .next ((s.setPc (if s.reg x == nn then s.pc + 4 else s.pc + 2)).setStatus .ok) := by
  simp [exec, execSeImm, finish_eq]

theorem exec_sneImm (x : Reg) (nn : Byte) (s : State) : exec (.sneImm x nn) s =
    .next ((s.setPc (if s.reg x != nn then s.pc + 4 else s.pc + 2)).setStatus .ok) := by
  simp [exec, execSneImm, finish_eq]

theorem exec_seReg (x y : Reg) (n : Nibble) (s : State) : exec (.seReg x y n) s =
    .next ((s.setPc (if s.reg x == s.reg y then s.pc + 4 else s.pc + 2)).setStatus .ok) := by
  simp [exec, execSeReg, finish_eq]

theorem exec_sneReg (x y : Reg) (n : Nibble) (s : State) : exec (.sneReg x y n) s =
    .next ((s.setPc (if s.reg x != s.reg y then s.pc + 4 else s.pc + 2)).setStatus .ok) := by
  simp [exec, execSneReg, finish_eq]

theorem exec_ldImm (x : Reg) (nn : Byte) (s : State) : exec (.ldImm x nn) s = finish .advance2 (s.setReg x nn) := rfl

theorem exec_addImm (x : Reg) (nn : Byte) (s : State) :
    exec (.addImm x nn) s = finish .advance2 (s.setReg x (s.reg x + nn)) := rfl

theorem exec_ldReg (x y : Reg) (s : State) : exec (.ldReg x y) s = finish .advance2 (s.setReg x (s.reg y)) := rfl

theorem exec_orReg (x y : Reg) (s : State) :
    exec (.orReg x y) s = finish .advance2 (s.setReg x (s.reg x ||| s.reg y)) := rfl

theorem exec_andReg (x y : Reg) (s : State) :
    exec (.andReg x y) s = finish .advance2 (s.setReg x (s.reg x &&& s.reg y)) := rfl

theorem exec_xorReg (x y : Reg) (s : State) :
    exec (.xorReg x y) s = finish .advance2 (s.setReg x (s.reg x ^^^ s.reg y)) := rfl

theorem exec_addReg (x y : Reg) (s : State) : exec (.addReg x y) s =
    finishWithFlag x (s.reg x + s.reg y) (carryOf (s.reg x) (s.reg y)) s := rfl

theorem exec_subReg (x y : Reg) (s : State) : exec (.subReg x y) s =
    finishWithFlag x (s.reg x - s.reg y) (notBorrowOf (s.reg x) (s.reg y)) s := rfl

theorem exec_shr (x y : Reg) (s : State) : exec (.shr x y) s =
    finishWithFlag x (s.reg x >>> 1) (lowBit (s.reg x)) s := rfl

theorem exec_subnReg (x y : Reg) (s : State) : exec (.subnReg x y) s =
    finishWithFlag x (s.reg y - s.reg x) (notBorrowOf (s.reg y) (s.reg x)) s := rfl

theorem exec_shl (x y : Reg) (s : State) : exec (.shl x y) s =
    finishWithFlag x (s.reg x <<< 1) (highBit (s.reg x)) s := rfl

/-- What a result with a flag leaves: the flag in `VF` whatever the destination is (R40). -/
theorem finishWithFlag_eq (x : Reg) (r : Byte) (f : Bool) (s : State) : finishWithFlag x r f s =
    .next ((((s.setReg x r).setFlag f).setPc (s.pc + 2)).setStatus .ok) := rfl

/-! ### Families 0xA to 0xD -/

theorem exec_ldI (nnn : Addr) (s : State) : exec (.ldI nnn) s = finish .advance2 (s.setIndex (addrOperand nnn)) := rfl

theorem exec_jpV0 (nnn : Addr) (s : State) :
    exec (.jpV0 nnn) s = .next ((s.setPc (indexedTarget nnn (s.reg 0))).setStatus .ok) := rfl

theorem exec_rnd (x : Reg) (nn : Byte) (s : State) :
    exec (.rnd x nn) s = rndWith (Config.randByte s.draws) x nn s.countDraw := rfl

theorem rndWith_eq (r : Byte) (x : Reg) (nn : Byte) (s : State) :
    rndWith r x nn s = finish .advance2 (s.setReg x (r &&& nn)) := rfl

theorem exec_drw_inside (x y : Reg) (n : Nibble) (s : State) (h : n.toNat = 0 ∨ s.i.toNat + n.toNat ≤ 0x1000) :
    exec (.drw x y n) s = finish .advance2
      ((s.setDisplay (drawSprite (s.reg x) (s.reg y) (s.mem.readList s.i.toNat n.toNat) s.disp).1).setFlag
        (drawSprite (s.reg x) (s.reg y) (s.mem.readList s.i.toNat n.toNat) s.disp).2) := by
  simp only [exec, execDrw, readBytes_ok s s.i.toNat n.toNat h, orFatal_ok]

theorem exec_drw_outside (x y : Reg) (n : Nibble) (s : State) (h : 0 < n.toNat)
    (hr : 0x1000 < s.i.toNat + n.toNat) : exec (.drw x y n) s =
    .next ((s.setStatus (.fatal (.outOfRangeAddress (max s.i.toNat 0x1000) s.pc))).setBeep false) := by
  simp only [exec, execDrw, readBytes_error s s.i.toNat n.toNat h hr, orFatal_error, raiseFatal_eq]

/-! ### Families 0xE and 0xF -/

theorem exec_skp_key (x : Reg) (s : State) (h : (s.reg x).toNat < 16) : exec (.skp x) s =
    .next ((s.setPc (if s.key[(s.reg x).toNat] then s.pc + 4 else s.pc + 2)).setStatus .ok) := by
  rcases keyState_cases s (s.reg x) with ⟨_, hk⟩ | ⟨h', _⟩
  · simp [exec, execSkp, hk, finish_eq]
  · omega

theorem exec_skp_noKey (x : Reg) (s : State) (h : 16 ≤ (s.reg x).toNat) : exec (.skp x) s =
    .next ((s.setStatus (.fatal (.outOfRangeOperand (s.reg x) s.pc))).setBeep false) := by
  rcases keyState_cases s (s.reg x) with ⟨h', _⟩ | ⟨_, hk⟩
  · omega
  · simp [exec, execSkp, hk, raiseFatal_eq]

theorem exec_sknp_key (x : Reg) (s : State) (h : (s.reg x).toNat < 16) : exec (.sknp x) s =
    .next ((s.setPc (if s.key[(s.reg x).toNat] then s.pc + 2 else s.pc + 4)).setStatus .ok) := by
  rcases keyState_cases s (s.reg x) with ⟨_, hk⟩ | ⟨h', _⟩
  · simp only [exec, execSknp, hk, orFatal_ok, finish_eq, applyPolicy_skipIf]
    cases s.key[(s.reg x).toNat] <;> rfl
  · omega

theorem exec_sknp_noKey (x : Reg) (s : State) (h : 16 ≤ (s.reg x).toNat) : exec (.sknp x) s =
    .next ((s.setStatus (.fatal (.outOfRangeOperand (s.reg x) s.pc))).setBeep false) := by
  rcases keyState_cases s (s.reg x) with ⟨h', _⟩ | ⟨_, hk⟩
  · omega
  · simp [exec, execSknp, hk, raiseFatal_eq]

theorem exec_ldVxDt (x : Reg) (s : State) : exec (.ldVxDt x) s = finish .advance2 (s.setReg x s.dt) := rfl

theorem exec_ldVxK_pressed (x : Reg) (s : State) (k : Fin 16) (h : lowestKey s.key = some k) :
    exec (.ldVxK x) s = finish .advance2 (s.setReg x (keyIndex k)) := by
  simp only [exec, execLdVxK, h]

theorem exec_ldVxK_none (x : Reg) (s : State) (h : lowestKey s.key = none) :
    exec (.ldVxK x) s = .next ((s.setPc s.pc).setStatus .waiting) := by
  simp only [exec, execLdVxK, h]; rfl

theorem exec_ldDtVx (x : Reg) (s : State) : exec (.ldDtVx x) s = finish .advance2 (s.setDelay (s.reg x)) := rfl

theorem exec_ldStVx (x : Reg) (s : State) : exec (.ldStVx x) s = finish .advance2 (s.setSound (s.reg x)) := rfl

theorem exec_addI (x : Reg) (s : State) : exec (.addI x) s = finish .advance2
    ((s.setIndex (wrap12 (indexSum s.i (s.reg x)))).setFlag (indexOverflow (indexSum s.i (s.reg x)))) := rfl

theorem exec_ldF (x : Reg) (s : State) :
    exec (.ldF x) s = finish .advance2 (s.setIndex (glyphAddress (s.reg x))) := rfl

theorem exec_ldB_inside (x : Reg) (s : State) (h : s.i.toNat + 3 ≤ 0x1000) : exec (.ldB x) s =
    finish .advance2 (s.setMem (s.mem.writeList s.i.toNat (bcdDigits (s.reg x)))) := by
  simp only [exec, execLdB, writeBytes_ok s s.i.toNat (bcdDigits (s.reg x)) (.inr h), orFatal_ok]

theorem exec_ldB_outside (x : Reg) (s : State) (h : 0x1000 < s.i.toNat + 3) : exec (.ldB x) s =
    .next ((s.setStatus (.fatal (.outOfRangeAddress (max s.i.toNat 0x1000) s.pc))).setBeep false) := by
  simp only [exec, execLdB, writeBytes_error s s.i.toNat (bcdDigits (s.reg x)) (List.cons_ne_nil _ _) h,
    orFatal_error, raiseFatal_eq]

theorem exec_storeRegs_inside (x : Reg) (s : State) (h : s.i.toNat + x.val < 0x1000) : exec (.storeRegs x) s =
    finish .advance2 ((s.setMem (s.mem.writeList s.i.toNat (s.regsUpTo x))).setIndex
      (s.i + BitVec.ofNat 16 (x.val + 1))) := by
  have hr : s.i.toNat + (s.regsUpTo x).length ≤ Config.memSize := by
    rw [length_regsUpTo]; simp only [Config.memSize]; omega
  simp only [exec, execStoreRegs, writeBytes_ok s s.i.toNat (s.regsUpTo x) (.inr hr), orFatal_ok]

theorem exec_storeRegs_outside (x : Reg) (s : State) (h : 0x1000 ≤ s.i.toNat + x.val) : exec (.storeRegs x) s =
    .next ((s.setStatus (.fatal (.outOfRangeAddress (max s.i.toNat 0x1000) s.pc))).setBeep false) := by
  have hr : Config.memSize < s.i.toNat + (s.regsUpTo x).length := by
    rw [length_regsUpTo]; simp only [Config.memSize]; omega
  have hne : s.regsUpTo x ≠ [] := List.length_pos_iff.mp (by simp)
  simp only [exec, execStoreRegs, writeBytes_error s s.i.toNat (s.regsUpTo x) hne hr, orFatal_error, raiseFatal_eq]

theorem exec_loadRegs_inside (x : Reg) (s : State) (h : s.i.toNat + x.val < 0x1000) : exec (.loadRegs x) s =
    finish .advance2 ((s.setRegs (loadFrom s.v 0 (s.mem.readList s.i.toNat (x.val + 1)))).setIndex
      (s.i + BitVec.ofNat 16 (x.val + 1))) := by
  have hr : s.i.toNat + (x.val + 1) ≤ Config.memSize := by simp only [Config.memSize]; omega
  simp only [exec, execLoadRegs, readBytes_ok s s.i.toNat (x.val + 1) (.inr hr), orFatal_ok]

theorem exec_loadRegs_outside (x : Reg) (s : State) (h : 0x1000 ≤ s.i.toNat + x.val) : exec (.loadRegs x) s =
    .next ((s.setStatus (.fatal (.outOfRangeAddress (max s.i.toNat 0x1000) s.pc))).setBeep false) := by
  have hr : Config.memSize < s.i.toNat + (x.val + 1) := by simp only [Config.memSize]; omega
  simp only [exec, execLoadRegs, readBytes_error s s.i.toNat (x.val + 1) (by omega) hr, orFatal_error, raiseFatal_eq]

end Sys2Proof.Machine
end

