-- ==== Sys2Proof/Laws/PerInstr.lean ====
section
/-! SUPPORT. A statement about every instruction, one lemma per constructor: the encoding lies in the family the opcode
map gives the instruction (spec/30_encoding.md R74). -/

namespace Sys2Proof.Laws

/-- The family of an instruction: the top nibble of its row in R74. -/
def familyOf : Instr → Nibble
  | .cls => 0x0
  | .ret => 0x0
  | .sys _ => 0x0
  | .jp _ => 0x1
  | .call _ => 0x2
  | .seImm _ _ => 0x3
  | .sneImm _ _ => 0x4
  | .seReg _ _ _ => 0x5
  | .ldImm _ _ => 0x6
  | .addImm _ _ => 0x7
  | .ldReg _ _ => 0x8
  | .orReg _ _ => 0x8
  | .andReg _ _ => 0x8
  | .xorReg _ _ => 0x8
  | .addReg _ _ => 0x8
  | .subReg _ _ => 0x8
  | .shr _ _ => 0x8
  | .subnReg _ _ => 0x8
  | .shl _ _ => 0x8
  | .sneReg _ _ _ => 0x9
  | .ldI _ => 0xA
  | .jpV0 _ => 0xB
  | .rnd _ _ => 0xC
  | .drw _ _ _ => 0xD
  | .skp _ => 0xE
  | .sknp _ => 0xE
  | .ldVxDt _ => 0xF
  | .ldVxK _ => 0xF
  | .ldDtVx _ => 0xF
  | .ldStVx _ => 0xF
  | .addI _ => 0xF
  | .ldF _ => 0xF
  | .ldB _ => 0xF
  | .storeRegs _ => 0xF
  | .loadRegs _ => 0xF

namespace FamilyNibble

/-- The encoding of the instruction carries its family in bits 15:12 (R71, R74). -/
def Statement (i : Instr) : Prop := fieldF (encode i) = familyOf i

theorem cls : Statement .cls := rfl
theorem ret : Statement .ret := rfl
theorem sys (nnn : Addr) : Statement (.sys nnn) := fieldF_wordNNN ..
theorem jp (nnn : Addr) : Statement (.jp nnn) := fieldF_wordNNN ..
theorem call (nnn : Addr) : Statement (.call nnn) := fieldF_wordNNN ..
theorem seImm (x : Reg) (nn : Byte) : Statement (.seImm x nn) := fieldF_wordXNN ..
theorem sneImm (x : Reg) (nn : Byte) : Statement (.sneImm x nn) := fieldF_wordXNN ..
theorem seReg (x : Reg) (y : Reg) (n : Nibble) : Statement (.seReg x y n) := fieldF_wordXYN ..
theorem ldImm (x : Reg) (nn : Byte) : Statement (.ldImm x nn) := fieldF_wordXNN ..
theorem addImm (x : Reg) (nn : Byte) : Statement (.addImm x nn) := fieldF_wordXNN ..
theorem ldReg (x : Reg) (y : Reg) : Statement (.ldReg x y) := fieldF_wordXYN ..
theorem orReg (x : Reg) (y : Reg) : Statement (.orReg x y) := fieldF_wordXYN ..
theorem andReg (x : Reg) (y : Reg) : Statement (.andReg x y) := fieldF_wordXYN ..
theorem xorReg (x : Reg) (y : Reg) : Statement (.xorReg x y) := fieldF_wordXYN ..
theorem addReg (x : Reg) (y : Reg) : Statement (.addReg x y) := fieldF_wordXYN ..
theorem subReg (x : Reg) (y : Reg) : Statement (.subReg x y) := fieldF_wordXYN ..
theorem shr (x : Reg) (y : Reg) : Statement (.shr x y) := fieldF_wordXYN ..
theorem subnReg (x : Reg) (y : Reg) : Statement (.subnReg x y) := fieldF_wordXYN ..
theorem shl (x : Reg) (y : Reg) : Statement (.shl x y) := fieldF_wordXYN ..
theorem sneReg (x : Reg) (y : Reg) (n : Nibble) : Statement (.sneReg x y n) := fieldF_wordXYN ..
theorem ldI (nnn : Addr) : Statement (.ldI nnn) := fieldF_wordNNN ..
theorem jpV0 (nnn : Addr) : Statement (.jpV0 nnn) := fieldF_wordNNN ..
theorem rnd (x : Reg) (nn : Byte) : Statement (.rnd x nn) := fieldF_wordXNN ..
theorem drw (x : Reg) (y : Reg) (n : Nibble) : Statement (.drw x y n) := fieldF_wordXYN ..
theorem skp (x : Reg) : Statement (.skp x) := fieldF_wordXNN ..
theorem sknp (x : Reg) : Statement (.sknp x) := fieldF_wordXNN ..
theorem ldVxDt (x : Reg) : Statement (.ldVxDt x) := fieldF_wordXNN ..
theorem ldVxK (x : Reg) : Statement (.ldVxK x) := fieldF_wordXNN ..
theorem ldDtVx (x : Reg) : Statement (.ldDtVx x) := fieldF_wordXNN ..
theorem ldStVx (x : Reg) : Statement (.ldStVx x) := fieldF_wordXNN ..
theorem addI (x : Reg) : Statement (.addI x) := fieldF_wordXNN ..
theorem ldF (x : Reg) : Statement (.ldF x) := fieldF_wordXNN ..
theorem ldB (x : Reg) : Statement (.ldB x) := fieldF_wordXNN ..
theorem storeRegs (x : Reg) : Statement (.storeRegs x) := fieldF_wordXNN ..
theorem loadRegs (x : Reg) : Statement (.loadRegs x) := fieldF_wordXNN ..

end FamilyNibble

end Sys2Proof.Laws
end

