-- ==== Sys2Proof/Tests/Slice0.lean ====
section
/-! SUPPORT. Tests. Expected values are those of spec/95_test_vectors.md (the id stands beside each test) or are worked
out by hand from the rule named. Then one witness for every statement that has hypotheses. -/

open Sys2Proof Sys2Proof.Machine Sys2Proof.Claims

namespace Sys2Proof.Tests

/-! ### Small states -/

/-- The state with one instruction word at `pc`. -/
def word (w : Nat) (s : State) : State := s.withFetchWord 16 w

/-- Reset, with some registers set. -/
def regs (l : List (Reg × Byte)) : State := l.foldl (fun s c => s.setReg c.1 c.2) State.reset

/-- The state with some bytes stored from an address on. -/
def bytes (a : Nat) (bs : List Byte) (s : State) : State := s.setMem (s.mem.writeList a bs)

/-- The state with one display cell toggled. -/
def withCell (x : Fin 64) (y : Fin 32) (s : State) : State := { s with disp := s.disp.toggle x y }

/-- The state with one key pressed. -/
def pressed (k : Fin 16) (s : State) : State := s.setKeys (s.key.set k true)

/-- The state with `pc` at an address. -/
def atPc (a : Word) (s : State) : State := s.setPc a

/-- The state with `SP` and one stack slot set. -/
def stacked (sp : Fin 17) (slot : Fin 16) (a : Word) (s : State) : State := s.setStack (s.stack.set slot a) sp

/-- The step answers a next state that passes the check. -/
def steps (s : State) (check : State → Bool) : Bool :=
  match step s with
  | .next t => check t
  | .fault _ => false
  | .refused _ => false

/-- How many display cells are set. -/
def setCells (s : State) : Nat := (s.disp.toList.map (fun row => row.toList.countP id)).sum

/-! ### Well-formedness: the one check, and what it refuses (R75) -/

theorem test_wellFormed_refuses_sys_0E0 : (Instr.sys 0x0E0).wellFormed = false := by decide

theorem test_wellFormed_refuses_sys_0EE : (Instr.sys 0x0EE).wellFormed = false := by decide

theorem test_wellFormed_takes_sys_0E1 : (Instr.sys 0x0E1).wellFormed = true := by decide

/-! ### Decoding: words written out from the opcode map (R74), every constructor -/

theorem test_decode_family0to2 :
    [0x00E0, 0x00EE, 0x00E1, 0x0000, 0x1ABC, 0x2FED].map (decodeTableWord 16) =
      [some .cls,
        some .ret,
        some (.sys 0x0E1),
        some (.sys 0x000),
        some (.jp 0xABC),
        some (.call 0xFED)] := by decide

theorem test_decode_immediate :
    [0x3A5C, 0x4B6D, 0x5127, 0x6F01, 0x70FE].map (decodeTableWord 16) =
      [some (.seImm 0xA 0x5C),
        some (.sneImm 0xB 0x6D),
        some (.seReg 1 2 7),
        some (.ldImm 0xF 0x01),
        some (.addImm 0 0xFE)] := by decide

theorem test_decode_family8 :
    [0x8AB0, 0x8AB1, 0x8AB2, 0x8AB3, 0x8AB4, 0x8AB5, 0x8AB6, 0x8AB7, 0x8ABE].map (decodeTableWord 16) =
      [some (.ldReg 0xA 0xB),
        some (.orReg 0xA 0xB),
        some (.andReg 0xA 0xB),
        some (.xorReg 0xA 0xB),
        some (.addReg 0xA 0xB),
        some (.subReg 0xA 0xB),
        some (.shr 0xA 0xB),
        some (.subnReg 0xA 0xB),
        some (.shl 0xA 0xB)] := by decide

theorem test_decode_index :
    [0x9345, 0xA123, 0xB300, 0xC30F, 0xD125].map (decodeTableWord 16) =
      [some (.sneReg 3 4 5),
        some (.ldI 0x123),
        some (.jpV0 0x300),
        some (.rnd 3 0x0F),
        some (.drw 1 2 5)] := by decide

theorem test_decode_keys :
    [0xE49E, 0xE4A1].map (decodeTableWord 16) = [some (.skp 4), some (.sknp 4)] := by decide

theorem test_decode_familyF :
    [0xF107, 0xF20A, 0xF315, 0xF418, 0xF51E, 0xF629, 0xF733, 0xF855, 0xF965].map (decodeTableWord 16) =
      [some (.ldVxDt 1),
        some (.ldVxK 2),
        some (.ldDtVx 3),
        some (.ldStVx 4),
        some (.addI 5),
        some (.ldF 6),
        some (.ldB 7),
        some (.storeRegs 8),
        some (.loadRegs 9)] := by decide

/-- R77 to R80: sub-selectors that name no row, each rejected under its own name. -/
theorem test_decode_rejects :
    decodeWord 0x8AB8 = .error (.family8 0x8) ∧ decodeWord 0x8ABF = .error (.family8 0xF) ∧
    decodeWord 0xE49F = .error (.familyE 0x9F) ∧ decodeWord 0xF2FF = .error (.familyF 0xFF) ∧
    decodeBytes [0x12] = .error .truncated := by decide

/-- The opcode map has the 35 rows of R74. -/
theorem test_opcodeMap_length : opcodeMap.length = 35 := by decide

/-! ### One step on a small state -/

/-- T-CY-1. -/
theorem test_fetch_atPctop : steps (word 0x6007 (atPc 0xFFE State.reset))
    (fun t => t.reg 0 == 7 && t.pc == 0x1000 && t.status == .ok && t.currentOpcode == 0x6007) = true := by decide

/-- T-CY-2. -/
theorem test_fetch_across_top : steps (atPc 0xFFF State.reset)
    (fun t => t == (atPc 0xFFF State.reset).setStatus (.fatal (.outOfRangeAddress 0x1000 0xFFF))) = true := by decide

/-- T-IJ-3, the fetch after it. -/
theorem test_fetch_past_top : steps (atPc 0x10FE State.reset)
    (fun t => t.status == .fatal (.outOfRangeAddress 0x10FE 0x10FE) && t.pc == 0x10FE) = true := by decide

/-- T-CY-4. -/
theorem test_decode_error_ticks : steps (word 0x8009 (State.reset.setDelay 5))
    (fun t => t.status == .decodeError 0x8009 && t.pc == 0x202 && t.dt == 4 &&
      t.currentOpcode == 0x8009) = true := by decide

/-- T-CY-8. -/
theorem test_odd_pc : steps (word 0x6A01 (atPc 0x201 State.reset))
    (fun t => t.reg 0xA == 1 && t.pc == 0x203) = true := by decide

/-- T-CY-9. -/
theorem test_ret_empty : steps (word 0x00EE ((State.reset.setDelay 5).setSound 1))
    (fun t => t.status == .fatal (.stackUnderflow 0x200) && t.currentOpcode == 0x00EE &&
      t.pc == 0x200 && t.dt == 5 && t.st == 1 && !t.beep) = true := by decide

/-- T-L1-8, with one cell set before. -/
theorem test_cls : steps (word 0x00E0 (withCell 63 31 State.reset))
    (fun t => setCells t == 0 && t.drawFlag && t.pc == 0x202) = true := by decide

/-- T-F0-2. -/
theorem test_ret : steps (word 0x00EE (stacked 1 0 0x2FE (atPc 0x400 State.reset)))
    (fun t => t.sp == 0 && t.pc == 0x300 && t.stack[0] == 0x2FE) = true := by decide

/-- T-F0-4. -/
theorem test_call_last_slot : steps (word 0x2400 (stacked 15 0 0 (atPc 0x300 State.reset)))
    (fun t => t.stack[15] == 0x300 && t.sp == 16 && t.pc == 0x400) = true := by decide

/-- T-F0-3. -/
theorem test_call_full : steps (word 0x2400 (stacked 16 0 0 (atPc 0x300 State.reset)))
    (fun t => t.status == .fatal (.stackOverflow 0x300) && t.sp == 16 && t.pc == 0x300) = true := by decide

/-- T-F0-8. -/
theorem test_sys : steps (word 0x00E1 (withCell 3 4 State.reset))
    (fun t => t.status == .decodeError 0x00E1 && t.pc == 0x202 && setCells t == 1) = true := by decide

/-- T-L1-7. -/
theorem test_jp : steps (word 0x1111 State.reset)
    (fun t => t.currentOpcode == 0x1111 && t.pc == 0x111) = true := by decide

/-- T-L1-6. -/
theorem test_seImm : steps (word 0x32FF (regs [(2, 0xFF)]))
    (fun t => t.pc == 0x204) = true := by decide

/-- T-L1-6. -/
theorem test_seImm_differs : steps (word 0x32FF State.reset)
    (fun t => t.pc == 0x202) = true := by decide

/-- T-SK-2. -/
theorem test_sneImm : steps (word 0x4143 (regs [(1, 0x42)]))
    (fun t => t.pc == 0x204) = true := by decide

/-- T-SK-5. -/
theorem test_seReg_any_n : steps (word 0x5125 (regs [(1, 7), (2, 7)]))
    (fun t => t.pc == 0x204) = true := by decide

/-- T-SK-7. -/
theorem test_sneReg : steps (word 0x9120 (regs [(1, 7), (2, 8)]))
    (fun t => t.pc == 0x204) = true := by decide

/-- T-L1-1. -/
theorem test_ldImm : steps (word 0x65AB State.reset)
    (fun t => t.reg 5 == 0xAB && t.pc == 0x202 && t.status == .ok) = true := by decide

/-- T-AL-1. -/
theorem test_addImm : steps (word 0x7001 (regs [(0, 0xFF), (15, 0x55)]))
    (fun t => t.reg 0 == 0 && t.reg 15 == 0x55) = true := by decide

/-- T-AL-2. -/
theorem test_addImm_to_VF : steps (word 0x7F03 (regs [(15, 0xFE)]))
    (fun t => t.reg 15 == 1) = true := by decide

/-- R132 and R40 by hand: the copy is the last write where X is 15. -/
theorem test_ldReg_to_VF : steps (word 0x8F10 (regs [(1, 0x9C)]))
    (fun t => t.reg 15 == 0x9C && t.reg 1 == 0x9C) = true := by decide

/-- T-AL-20. -/
theorem test_orReg : steps (word 0x8011 (regs [(0, 0xF0), (1, 0x0F), (15, 0x77)]))
    (fun t => t.reg 0 == 0xFF && t.reg 15 == 0x77) = true := by decide

/-- T-AL-21. -/
theorem test_andReg : steps (word 0x8012 (regs [(0, 0xF0), (1, 0x3C), (15, 0x77)]))
    (fun t => t.reg 0 == 0x30 && t.reg 15 == 0x77) = true := by decide

/-- T-AL-22. -/
theorem test_xorReg : steps (word 0x8013 (regs [(0, 0xF0), (1, 0x3C)]))
    (fun t => t.reg 0 == 0xCC) = true := by decide

/-- T-L1-2. -/
theorem test_addReg : steps (word 0x8014 (regs [(0, 0xC8), (1, 0x64)]))
    (fun t => t.reg 0 == 0x2C && t.reg 15 == 1) = true := by decide

/-- T-AL-7. -/
theorem test_addReg_X_is_VF : steps (word 0x8F14 (regs [(15, 0x10), (1, 0xF5)]))
    (fun t => t.reg 15 == 1) = true := by decide

/-- T-L1-3. -/
theorem test_subReg : steps (word 0x8015 (regs [(0, 0x10), (1, 0x20)]))
    (fun t => t.reg 0 == 0xF0 && t.reg 15 == 0) = true := by decide

/-- T-L1-3. -/
theorem test_subReg_equal : steps (word 0x8015 (regs [(0, 0x20), (1, 0x20)]))
    (fun t => t.reg 0 == 0 && t.reg 15 == 1) = true := by decide

/-- T-AL-13. -/
theorem test_shr_ignores_Y : steps (word 0x8056 (regs [(5, 0xFF), (15, 9)]))
    (fun t => t.reg 0 == 0 && t.reg 15 == 0) = true := by decide

/-- T-AL-14. -/
theorem test_shr_X_is_VF : steps (word 0x8F06 (regs [(15, 3)]))
    (fun t => t.reg 15 == 1) = true := by decide

/-- T-AL-15. -/
theorem test_subnReg : steps (word 0x8017 (regs [(0, 1)]))
    (fun t => t.reg 0 == 0xFF && t.reg 15 == 0) = true := by decide

/-- T-AL-16. -/
theorem test_subnReg_no_borrow : steps (word 0x8017 (regs [(0, 1), (1, 3)]))
    (fun t => t.reg 0 == 2 && t.reg 15 == 1) = true := by decide

/-- T-AL-18. -/
theorem test_shl : steps (word 0x800E (regs [(0, 0x80)]))
    (fun t => t.reg 0 == 0 && t.reg 15 == 1) = true := by decide

/-- T-AL-19. -/
theorem test_shl_low : steps (word 0x800E (regs [(0, 0x7F), (15, 1)]))
    (fun t => t.reg 0 == 0xFE && t.reg 15 == 0) = true := by decide

/-- T-IJ-1. -/
theorem test_ldI : steps (word 0xA123 State.reset)
    (fun t => t.i == 0x123) = true := by decide

/-- T-IJ-3. -/
theorem test_jpV0_not_masked : steps (word 0xBFFF (regs [(0, 0xFF)]))
    (fun t => t.pc == 0x10FE) = true := by decide

/-- T-IJ-4. -/
theorem test_jpV0_uses_V0 : steps (word 0xB300 (regs [(0, 0x10), (3, 0x20)]))
    (fun t => t.pc == 0x310) = true := by decide

/-- T-IJ-5, with the byte that was drawn given. -/
theorem test_rnd_masks : (match rndWith 0xA7 3 0x0F State.reset with
    | .next t => t.reg 3 == 0x07
    | .fault _ => false
    | .refused _ => false) = true := by decide

/-- T-DR-5. -/
theorem test_drw_wraps_columns : steps (word 0xD011 (bytes 0x300 [0xFF] ((regs [(0, 62), (1, 30)]).setIndex 0x300)))
    (fun t => setCells t == 8 && t.disp.cell 62 30 && t.disp.cell 63 30 && t.disp.cell 0 30 &&
      t.disp.cell 5 30 && t.reg 15 == 0 && t.drawFlag) = true := by decide

/-- T-DR-4. -/
theorem test_drw_collides : steps (word 0xD231 (withCell 1 0 (bytes 0x300 [0xC0] (State.reset.setIndex 0x300))))
    (fun t => t.disp.cell 0 0 && !t.disp.cell 1 0 && t.reg 15 == 1) = true := by decide

/-- T-KY-1. -/
theorem test_skp : steps (word 0xE49E (pressed 0xA (regs [(4, 0xA)])))
    (fun t => t.pc == 0x204) = true := by decide

/-- T-KY-5. -/
theorem test_skp_no_such_key : steps (word 0xE49E (regs [(4, 0x10)]))
    (fun t => t.status == .fatal (.outOfRangeOperand 0x10 0x200) && t.pc == 0x200) = true := by decide

/-- T-KY-4. -/
theorem test_sknp : steps (word 0xE4A1 (pressed 0xA (regs [(4, 0xA)])))
    (fun t => t.pc == 0x202) = true := by decide

/-- T-KY-3. -/
theorem test_sknp_released : steps (word 0xE4A1 (regs [(4, 0xA)]))
    (fun t => t.pc == 0x204) = true := by decide

/-- T-FX-1. -/
theorem test_ldVxDt : steps (word 0xF307 (State.reset.setDelay 0x20))
    (fun t => t.reg 3 == 0x20 && t.dt == 0x1F) = true := by decide

/-- T-FX-3. -/
theorem test_ldVxK : steps (word 0xF50A (pressed 9 (pressed 3 State.reset)))
    (fun t => t.reg 5 == 3 && t.pc == 0x202 && t.status == .ok) = true := by decide

/-- T-FX-2. -/
theorem test_ldVxK_waits : steps (word 0xF30A ((regs [(3, 0x44)]).setDelay 3))
    (fun t => t.status == .waiting && t.pc == 0x200 && t.reg 3 == 0x44 && t.dt == 2) = true := by decide

/-- T-FX-5. -/
theorem test_ldDtVx : steps (word 0xF015 ((regs [(0, 1)]).setDelay 9))
    (fun t => t.dt == 0) = true := by decide

/-- T-FX-6. -/
theorem test_ldStVx : steps (word 0xF018 (regs [(0, 1)]))
    (fun t => t.st == 0 && t.beep) = true := by decide

/-- T-FX-7. -/
theorem test_ldStVx_zero : steps (word 0xF018 (State.reset.setSound 1))
    (fun t => t.st == 0 && !t.beep) = true := by decide

/-- T-FX-9. -/
theorem test_addI_wraps : steps (word 0xF21E ((regs [(2, 1)]).setIndex 0xFFF))
    (fun t => t.i == 0 && t.reg 15 == 1) = true := by decide

/-- T-FX-12. -/
theorem test_addI_X_is_VF : steps (word 0xFF1E ((regs [(15, 5)]).setIndex 0x100))
    (fun t => t.i == 0x105 && t.reg 15 == 0) = true := by decide

/-- T-FX-13. -/
theorem test_ldF : steps (word 0xF029 (regs [(0, 0x1A)]))
    (fun t => t.i == 0x32) = true := by decide

/-- T-FX-15. -/
theorem test_ldB : steps (word 0xF033 ((regs [(0, 255)]).setIndex 0x300))
    (fun t => t.byteAt 0x300 == 2 && t.byteAt 0x301 == 5 && t.byteAt 0x302 == 5 && t.i == 0x300) = true := by decide

/-- T-FX-19. -/
theorem test_ldB_out_of_range : steps (word 0xF033 ((regs [(0, 255)]).setIndex 0xFFE))
    (fun t => t.status == .fatal (.outOfRangeAddress 0x1000 0x200) && t.byteAt 0xFFE == 0 &&
      t.byteAt 0xFFF == 0) = true := by decide

/-- T-FX-26. -/
theorem test_storeRegs : steps (word 0xF155 (bytes 0x302 [0x77] ((regs [(0, 5), (1, 6)]).setIndex 0x300)))
    (fun t => t.byteAt 0x300 == 5 && t.byteAt 0x301 == 6 && t.byteAt 0x302 == 0x77 &&
      t.i == 0x302) = true := by decide

/-- T-FX-21, with two of the registers. -/
theorem test_storeRegs_to_top : steps (word 0xFF55 ((regs [(1, 1), (15, 0x0F)]).setIndex 0xFF0))
    (fun t => t.byteAt 0xFF1 == 1 && t.byteAt 0xFFF == 0x0F && t.i == 0x1000) = true := by decide

/-- T-FX-23. -/
theorem test_loadRegs : steps (word 0xF265 (bytes 0x300 [2, 5, 4] ((regs [(3, 0x33)]).setIndex 0x300)))
    (fun t => t.reg 0 == 2 && t.reg 1 == 5 && t.reg 2 == 4 && t.reg 3 == 0x33 && t.i == 0x303) = true := by decide

/-- T-FX-25. -/
theorem test_loadRegs_out_of_range : steps (word 0xF065 (State.reset.setIndex 0x1000))
    (fun t => t.status == .fatal (.outOfRangeAddress 0x1000 0x200) && t.i == 0x1000) = true := by decide

/-- T-RL-1: two glyphs of the font after reset. -/
theorem test_reset_font : (List.range 5).map State.reset.byteAt = [0xF0, 0x90, 0x90, 0x90, 0xF0] ∧
    [0x4B, 0x4C, 0x4D, 0x4E, 0x4F].map State.reset.byteAt = [0xF0, 0x80, 0xF0, 0x80, 0x80] := by decide

/-- T-RL-4. -/
theorem test_load : (match hostLoad [0x12, 0x34] (atPc 0x300 (regs [(0, 9)])) with
    | .ok t => t.byteAt 0x200 == 0x12 && t.byteAt 0x201 == 0x34 && t.pc == 0x300 && t.reg 0 == 9
    | .error _ => false) = true := by decide

/-- A byte over the font (T-FX-27) takes one entry; storing the reset byte again removes it (log entry 2). -/
theorem test_memory_canonical :
    Memory.write [] 0x19 0xFF = [(0x19, 0xFF)] ∧ Memory.write [(0x19, 0xFF)] 0x19 0xF0 = [] := by decide

/-! ### Witnesses: hypotheses that are met together -/

/-- A word of family 8 with no row. -/
theorem illegal_8009 (i : Instr) : decodeWord 0x8009 ≠ .ok i := by
  have h : decodeWord 0x8009 = .error (.family8 9) := by decide
  rw [h]; exact nofun

theorem witness_StepKeepsInvariant :
    ∃ s t, Inv s ∧ s.pc = 0xFFE ∧ step s = .next t :=
  ⟨word 0xF065 (atPc 0xFFE State.reset), _, ⟨by decide, by decide, by decide, by decide⟩, rfl, rfl⟩

theorem witness_StepKeepsInvariant_atPcbounds :
    ∃ s t, Inv s ∧ s.i = 0x1000 ∧ s.pc = 0x10FE ∧ s.stack[15] = 0xFFE ∧ step s = .next t :=
  ⟨stacked 16 15 0xFFE (atPc 0x10FE (State.reset.setIndex 0x1000)), _, ⟨by decide, by decide, by decide, by decide⟩,
    rfl, rfl, rfl, rfl⟩

theorem witness_ReachableStatesMeetInvariant :
    ∃ s, Reachable s ∧ s.pc = 0x111 :=
  ⟨_, .step (.host (.load [0x11, 0x11]) .reset) rfl, by decide⟩

theorem witness_DecodeInvertsEncode :
    [Instr.sys 0x0DF, .sys 0x0E1, .sys 0x0ED, .sys 0x0EF, .sys 0xFFF, .drw 15 15 15, .loadRegs 0].all
      Instr.wellFormed = true :=
  by decide

theorem witness_EncodeInvertsDecode :
    decodeWord 0x0FFF = .ok (.sys 0xFFF) ∧ decodeWord 0x8F0E = .ok (.shl 15 0) ∧
      decodeWord 0xFF65 = .ok (.loadRegs 15) :=
  by decide

theorem witness_EachWordDecodesByItsRow :
    ∃ (w : Word) (i : Instr) (nnn : Addr), decodeWord w = .ok i ∧ i = .sys nnn :=
  ⟨0x00EF, _, 0x0EF, by decide, rfl⟩

theorem witness_StepRunsTheInstructionAtPc :
    ∃ (s : State) (i : Instr), s.pc = 0xFFE ∧ s.pc.toNat ≤ 0xFFE ∧
      decodeBytes [s.byteAt s.pc.toNat, s.byteAt (s.pc.toNat + 1)] = .ok (i, []) ∧ i = .ldImm 0 7 :=
  ⟨word 0x6007 (atPc 0xFFE State.reset), _, rfl, by decide, by decide, rfl⟩

theorem witness_FetchOutOfRangeIsFatal :
    0xFFE < (atPc 0xFFF State.reset).pc.toNat ∧ 0xFFE < (atPc 0x1000 State.reset).pc.toNat ∧
      0xFFE < (atPc 0xFFFF State.reset).pc.toNat :=
  by decide

theorem witness_IllegalWordIsReportedAndSkipped :
    ∃ (s : State) (w : Word), fetchWord s = .ok w ∧ ∀ i, decodeWord w ≠ .ok i :=
  ⟨word 0x8009 State.reset, 0x8009, by rfl, illegal_8009⟩

theorem witness_FatalStepIsRolledBackWhole :
    ∃ s t, step s = .next t ∧ t.failed = true ∧ t.currentOpcode = 0x00EE :=
  ⟨word 0x00EE State.reset, _, rfl, by decide, by decide⟩

theorem witness_FatalStepIsRolledBackWhole_fetch :
    ∃ s t, step s = .next t ∧ t.failed = true ∧ s.pc = 0xFFF :=
  ⟨atPc 0xFFF State.reset, _, rfl, by decide, by decide⟩

theorem witness_FatalErrorRepeats :
    ∃ s t, step s = .next t ∧ t.failed = true ∧ s.dt = 5 :=
  ⟨word 0x2400 (stacked 16 0 0 (State.reset.setDelay 5)), _, rfl, by decide, rfl⟩

theorem witness_CompletedStepTicksTheTimers :
    ∃ (s u : State) (w : Word) (i : Instr), fetchWord s = .ok w ∧ decodeWord w = .ok i ∧
      exec i (s.setOpcode w) = .next u ∧ u.failed = false ∧ u.st.toNat = 1 ∧ u.dt.toNat = 0 :=
  ⟨word 0xF018 (regs [(0, 1)]), _, 0xF018, .ldStVx 0, by rfl, by decide, rfl, rfl, by decide, by decide⟩

theorem witness_TimersCountDownUnlessWritten_delay :
    ∃ (s t : State) (w : Word) (x : Reg), step s = .next t ∧ t.failed = false ∧ fetchWord s = .ok w ∧
      decodeWord w = .ok (.ldDtVx x) ∧ s.reg x = 0 :=
  ⟨word 0xF015 (State.reset.setDelay 9), _, 0xF015, 0, rfl, by decide, by rfl, by decide, by decide⟩

theorem witness_TimersCountDownUnlessWritten_sound :
    ∃ (s t : State) (w : Word) (x : Reg), step s = .next t ∧ t.failed = false ∧ fetchWord s = .ok w ∧
      decodeWord w = .ok (.ldStVx x) ∧ s.reg x = 1 :=
  ⟨word 0xF018 (regs [(0, 1)]), _, 0xF018, 0, rfl, by decide, by rfl, by decide, by decide⟩

theorem witness_TimersCountDownUnlessWritten_neither :
    ∃ (s t : State) (w : Word), step s = .next t ∧ t.failed = false ∧ fetchWord s = .ok w ∧ s.st = 1 ∧
      (∀ x, decodeWord w ≠ .ok (.ldDtVx x)) ∧ ∀ x, decodeWord w ≠ .ok (.ldStVx x) :=
  ⟨word 0x8009 (State.reset.setSound 1), _, 0x8009, rfl, by decide, by rfl, rfl, fun _ => illegal_8009 _,
    fun _ => illegal_8009 _⟩

theorem witness_EveryInstructionFollowsItsPcPolicy :
    ∃ (i : Instr) (s t : State), exec i s = .next t ∧ t.failed = false ∧ i = .ldVxK 3 :=
  ⟨_, State.reset, _, rfl, by decide, rfl⟩

theorem witness_EveryInstructionFollowsItsPcPolicy_illegal :
    ∃ (s t : State) (w : Word), fetchWord s = .ok w ∧ (∀ i, decodeWord w ≠ .ok i) ∧ step s = .next t :=
  ⟨word 0x8009 State.reset, _, 0x8009, by rfl, illegal_8009, rfl⟩

theorem witness_OnlyTheNamedInstructionsWriteEachPart :
    ∃ (i : Instr) (s t : State), exec i s = .next t ∧ i = .storeRegs 3 ∧ t.failed = false :=
  ⟨_, State.reset, _, rfl, rfl, by decide⟩

theorem witness_OnlyDestinationRegistersChange :
    ∃ (i : Instr) (s t : State) (k : Reg), exec i s = .next t ∧ ¬ isDestination i k ∧
      i = .loadRegs 3 ∧ k = 4 :=
  ⟨_, State.reset, _, 4, rfl, by simp [isDestination], rfl, rfl⟩

theorem witness_OnlyTheStoredBytesChange :
    ∃ (i : Instr) (s t : State), exec i s = .next t ∧ i = .ldB 0 ∧
      [0x2FF, 0x303].all (fun a => ! decide (s.i.toNat ≤ a ∧ a < s.i.toNat + storedBytes i)) = true :=
  ⟨_, State.reset.setIndex 0x300, _, rfl, rfl, by decide⟩

theorem witness_OpcodeAndSoundTimerAreNeverRead :
    ∃ (i : Instr) (s t : State), exec i s = .next t ∧ i = .ldStVx 0 ∧ s.st = 7 :=
  ⟨_, State.reset.setSound 7, _, rfl, rfl, rfl⟩

theorem witness_OnlyKeyInstructionsReadTheKeypad :
    ∃ (i : Instr) (s t : State), exec i s = .next t ∧ (∀ x, i ≠ .skp x ∧ i ≠ .sknp x ∧ i ≠ .ldVxK x) :=
  ⟨.cls, State.reset, _, rfl, fun _ => ⟨nofun, nofun, nofun⟩⟩

theorem witness_ReturnGoesPastTheCall :
    0 < (stacked 1 0 0x2FE State.reset).sp.val ∧ 0 < (stacked 16 15 0x2FE State.reset).sp.val ∧
      State.reset.sp.val = 0 :=
  by decide

theorem witness_CallPushesItsOwnAddress :
    State.reset.sp.val < 16 ∧ (stacked 15 0 0 State.reset).sp.val < 16 ∧ (stacked 16 0 0 State.reset).sp.val = 16 :=
  by decide

theorem witness_CallThenReturnComesBack :
    ∃ (s t u : State), s.sp.val < 16 ∧ exec (.call 0x210) s = .next t ∧ u.sp = t.sp ∧
      u.stack = t.stack ∧ s.sp.val = 15 :=
  ⟨stacked 15 0 0 State.reset, _, _, by decide, rfl, rfl, rfl, rfl⟩

theorem witness_DrawTogglesTheCellsOfTheSprite :
    (0 : Nibble).toNat = 0 ∧ (State.reset.setIndex 0xFF1).i.toNat + (15 : Nibble).toNat ≤ 0x1000 :=
  by decide

theorem witness_DrawTogglesTheCellsOfTheSprite_collision :
    ∃ (s : State) (px : Fin 64) (py : Fin 32), s.i.toNat + (1 : Nibble).toNat ≤ 0x1000 ∧
      spriteLands s 0 1 1 px py ∧ s.disp.cell px py = true :=
  ⟨withCell 6 1 (bytes 0x300 [0x80] ((regs [(0, 70), (1, 33)]).setIndex 0x300)), 6, 1, by decide,
    ⟨0, by decide, 0, by decide, by decide, by decide, by decide⟩, by decide⟩

theorem witness_DrawTogglesTheCellsOfTheSprite_no_collision :
    ∃ (s : State), s.i.toNat + (1 : Nibble).toNat ≤ 0x1000 ∧
      ¬ ∃ px py, spriteLands s 0 1 1 px py ∧ s.disp.cell px py = true :=
  ⟨State.reset, by decide, fun ⟨px, py, _, h⟩ => by
    have e : State.reset.disp.cell px py = false := by simp [State.reset, Display.cell]
    exact absurd h (by simp [e])⟩

theorem witness_DrawOutOfRangeIsFatal :
    0 < (3 : Nibble).toNat ∧ 0x1000 < (State.reset.setIndex 0xFFE).i.toNat + (3 : Nibble).toNat ∧
      0 < (1 : Nibble).toNat ∧ 0x1000 < (State.reset.setIndex 0x1000).i.toNat + (1 : Nibble).toNat :=
  by decide

theorem witness_DrawingTwiceRestoresTheDisplay :
    ∃ (s : State) (px : Fin 64) (py : Fin 32), (0 : Reg) ≠ 15 ∧ (1 : Reg) ≠ 15 ∧
      s.i.toNat + (5 : Nibble).toNat ≤ 0x1000 ∧ spriteLands s 0 1 5 px py ∧ s.disp.cell px py = false :=
  ⟨State.reset, 3, 4, by decide, by decide, by decide, ⟨4, by decide, 3, by decide, by decide, by decide, by decide⟩,
    by decide⟩

theorem witness_DrawingTwiceRestoresTheDisplay_empty :
    ∃ (s : State), (0 : Nibble).toNat = 0 ∧ ¬ ∃ px py, spriteLands s 0 1 0 px py ∧ s.disp.cell px py = false :=
  ⟨State.reset.setIndex 0x1000, by decide, fun ⟨_, _, ⟨_, h, _⟩, _⟩ => absurd h (by simp)⟩

theorem witness_KeySkipsTestTheNamedKey :
    ((regs [(4, 15)]).reg 4).toNat < 16 ∧ 16 ≤ ((regs [(4, 16)]).reg 4).toNat :=
  by decide

theorem witness_KeyWaitTakesTheLowestKey :
    ∃ (s : State), s.key[(3 : Fin 16)] = true ∧ (∀ j : Fin 16, j < 3 → s.key[j] = false) ∧
      s.key[(9 : Fin 16)] = true :=
  ⟨pressed 9 (pressed 3 State.reset), by decide, by decide, by decide⟩

theorem witness_KeyWaitHoldsWhileNoKeyIsPressed :
    ∃ (s : State), (∀ k : Fin 16, s.key[k] = false) ∧ fetchWord s = .ok (encode (.ldVxK 3)) :=
  ⟨word 0xF30A State.reset, by decide, by rfl⟩

theorem witness_DecimalDigitsAreStored :
    (State.reset.setIndex 0xFFD).i.toNat + 2 < 0x1000 ∧ 0x1000 ≤ (State.reset.setIndex 0xFFE).i.toNat + 2 :=
  by decide

theorem witness_RegistersAreDumped :
    (State.reset.setIndex 0xFF0).i.toNat + (15 : Reg).val < 0x1000 ∧
      0x1000 ≤ (State.reset.setIndex 0xFF1).i.toNat + (15 : Reg).val :=
  by decide

theorem witness_RegistersAreLoaded :
    (State.reset.setIndex 0xFFF).i.toNat + (0 : Reg).val < 0x1000 ∧
      0x1000 ≤ (State.reset.setIndex 0x1000).i.toNat + (0 : Reg).val :=
  by decide

theorem witness_DumpThenLoadGivesTheRegistersBack :
    ∃ (s t u : State), s.i.toNat + (1 : Reg).val < 0x1000 ∧ exec (.storeRegs 1) s = .next t ∧ u.i = s.i ∧
      (∀ a, u.byteAt a = t.byteAt a) ∧ u.reg 0 ≠ s.reg 0 :=
  ⟨(regs [(0, 5), (1, 6)]).setIndex 0x300, _, (bytes 0x300 [5, 6] State.reset).setIndex 0x300, by decide, rfl, rfl,
    fun _ => rfl, by decide⟩

theorem witness_StoredCodeIsFetched :
    ∃ (s t u : State), s.i.toNat + (3 : Reg).val < 0x1000 ∧ (2 : Reg).val = (1 : Reg).val + 1 ∧ (2 : Reg) ≤ 3 ∧
      exec (.storeRegs 3) s = .next t ∧ u.mem = t.mem ∧ u.pc.toNat = s.i.toNat + (1 : Reg).val :=
  ⟨(regs [(1, 0x12), (2, 0x34)]).setIndex 0x300, _, atPc 0x301 (bytes 0x301 [0x12, 0x34] State.reset), by decide,
    by decide, by decide, rfl, by decide, by decide⟩

theorem witness_SelfJumpChangesOnlyTimersAndOpcode :
    (word 0x1200 State.reset).atSelfJump :=
  ⟨0x200, by rfl, by decide⟩

theorem witness_HostLoadCopiesOrRejects :
    (List.replicate 3584 (0x12 : Byte)).length ≤ 3584 ∧ 3584 < (List.replicate 3585 (0x12 : Byte)).length :=
  ⟨by rw [List.length_replicate], by rw [List.length_replicate]; decide⟩

end Sys2Proof.Tests
end

section
/-! SUPPORT. The one inversion of `exec`: the check each instruction makes, what it writes, its policy and its status,
tied to `exec` by `exec_eq`. What an instruction changes, leaves unchanged or never reads is then a fact about these four
functions, none of which can be stuck on a check. -/

namespace Sys2Proof.Machine

open Sys2Proof.Claims

/-- The fatal error of an instruction, where its check fails (spec/60_exceptions.md R204 to R207). -/
def faultOf : Instr → State → Option Fault
  | .ret, s => if s.sp.val = 0 then some (.stackUnderflow s.pc) else none
  | .call _, s => if s.sp.val = 16 then some (.stackOverflow s.pc) else none
  | .drw _ _ n, s => rangeError s s.i.toNat n.toNat
  | .skp x, s => if 16 ≤ (s.reg x).toNat then some (.outOfRangeOperand (s.reg x) s.pc) else none
  | .sknp x, s => if 16 ≤ (s.reg x).toNat then some (.outOfRangeOperand (s.reg x) s.pc) else none
  | .ldB _, s => rangeError s s.i.toNat 3
  | .storeRegs x, s => rangeError s s.i.toNat (x.val + 1)
  | .loadRegs x, s => rangeError s s.i.toNat (x.val + 1)
  | _, _ => none

/-- What an instruction whose check passes writes, beside `pc` and the status. -/
def effect : Instr → State → State
  | .cls, s => s.setDisplay clearDisplay
  | .ret, s => s.setStack s.stack ⟨s.sp.val - 1, by omega⟩
  | .call _, s =>
    s.setStack (s.stack.setIfInBounds s.sp.val s.pc) ⟨if s.sp.val = 16 then 16 else s.sp.val + 1, by split <;> omega⟩
  | .ldImm x nn, s => s.setReg x nn
  | .addImm x nn, s => s.setReg x (s.reg x + nn)
  | .ldReg x y, s => s.setReg x (s.reg y)
  | .orReg x y, s => s.setReg x (s.reg x ||| s.reg y)
  | .andReg x y, s => s.setReg x (s.reg x &&& s.reg y)
  | .xorReg x y, s => s.setReg x (s.reg x ^^^ s.reg y)
  | .addReg x y, s => (s.setReg x (s.reg x + s.reg y)).setFlag (carryOf (s.reg x) (s.reg y))
  | .subReg x y, s => (s.setReg x (s.reg x - s.reg y)).setFlag (notBorrowOf (s.reg x) (s.reg y))
  | .shr x _, s => (s.setReg x (s.reg x >>> 1)).setFlag (lowBit (s.reg x))
  | .subnReg x y, s => (s.setReg x (s.reg y - s.reg x)).setFlag (notBorrowOf (s.reg y) (s.reg x))
  | .shl x _, s => (s.setReg x (s.reg x <<< 1)).setFlag (highBit (s.reg x))
  | .ldI nnn, s => s.setIndex (addrOperand nnn)
  | .rnd x nn, s => s.countDraw.setReg x (Config.randByte s.draws &&& nn)
  | .drw x y n, s =>
    let dc := drawSprite (s.reg x) (s.reg y) (s.mem.readList s.i.toNat n.toNat) s.disp
    (s.setDisplay dc.1).setFlag dc.2
  | .ldVxDt x, s => s.setReg x s.dt
  | .ldVxK x, s => s.setRegs ((lowestKey s.key).elim s.v fun k => s.v.set x (keyIndex k))
  | .ldDtVx x, s => s.setDelay (s.reg x)
  | .ldStVx x, s => s.setSound (s.reg x)
  | .addI x, s =>
    (s.setIndex (wrap12 (indexSum s.i (s.reg x)))).setFlag (indexOverflow (indexSum s.i (s.reg x)))
  | .ldF x, s => s.setIndex (glyphAddress (s.reg x))
  | .ldB x, s => s.setMem (s.mem.writeList s.i.toNat (bcdDigits (s.reg x)))
  | .storeRegs x, s =>
    (s.setMem (s.mem.writeList s.i.toNat (s.regsUpTo x))).setIndex (s.i + BitVec.ofNat 16 (x.val + 1))
  | .loadRegs x, s =>
    (s.setRegs (loadFrom s.v 0 (s.mem.readList s.i.toNat (x.val + 1)))).setIndex (s.i + BitVec.ofNat 16 (x.val + 1))
  | _, s => s

/-- The program-counter policy of an instruction whose check passes (spec/30_encoding.md R90). -/
def policyOf : Instr → State → PcPolicy
  | .ret, s => .set (s.stack[s.sp.val - 1]! + 2)
  | .jp nnn, _ => .set (addrOperand nnn)
  | .call nnn, _ => .set (addrOperand nnn)
  | .seImm x nn, s => skipIf (s.reg x == nn)
  | .sneImm x nn, s => skipIf (s.reg x != nn)
  | .seReg x y _, s => skipIf (s.reg x == s.reg y)
  | .sneReg x y _, s => skipIf (s.reg x != s.reg y)
  | .jpV0 nnn, s => .set (indexedTarget nnn (s.reg 0))
  | .skp x, s => skipIf s.key[(s.reg x).toNat]!
  | .sknp x, s => skipIf !s.key[(s.reg x).toNat]!
  | .ldVxK _, s => (lowestKey s.key).elim .hold fun _ => .advance2
  | _, _ => .advance2

/-- The status of an instruction whose check passes (spec/60_exceptions.md R200, R202, R215). -/
def statusOf : Instr → State → Status
  | .sys nnn, _ => .decodeError (sysWord nnn)
  | .ldVxK _, s => (lowestKey s.key).elim .waiting fun _ => .ok
  | _, _ => .ok

/-- The state after an instruction whose check passes, before the tick. -/
def completed (i : Instr) (s : State) : State :=
  ((effect i s).setPc (applyPolicy (policyOf i s) s.pc)).setStatus (statusOf i s)

/-- A range check either passes or records the first address above memory. -/
theorem rangeError_cases (s : State) (base n : Nat) :
    ((n = 0 ∨ base + n ≤ 0x1000) ∧ rangeError s base n = none) ∨
    (0 < n ∧ 0x1000 < base + n ∧ rangeError s base n = some (.outOfRangeAddress (max base 0x1000) s.pc)) := by
  by_cases h : n = 0 ∨ base + n ≤ 0x1000
  · exact .inl ⟨h, rangeError_eq_none s base n h⟩
  · exact .inr ⟨by omega, by omega, rangeError_eq_some s base n (by omega) (by simp only [Config.memSize]; omega)⟩

theorem rangeError_eq_none_iff (s : State) (base n : Nat) :
    rangeError s base n = none ↔ n = 0 ∨ base + n ≤ 0x1000 := by
  rcases rangeError_cases s base n with ⟨h, hr⟩ | ⟨h, h', hr⟩
  · exact iff_of_true hr h
  · exact iff_of_false (by rw [hr]; exact nofun) (by omega)

/-- Every instruction answers its fatal error in the state it began in, or completes. -/
theorem exec_eq (i : Instr) (s : State) : exec i s =
    (faultOf i s).elim (.next (completed i s)) fun f => .next ((s.setStatus (.fatal f)).setBeep false) := by
  cases i with
  | ret =>
    by_cases h : s.sp.val = 0
    · simp [exec_ret_empty s h, faultOf, h]
    · have hlt : s.sp.val - 1 < 16 := by omega
      simp [exec_ret_full s (by omega), faultOf, h, completed, effect, policyOf, statusOf, applyPolicy, hlt]
  | call nnn =>
    by_cases h : s.sp.val = 16
    · simp [exec_call_full nnn s h, faultOf, h]
    · have hlt : s.sp.val < 16 := by omega
      have hset : s.stack.setIfInBounds s.sp.val s.pc = s.stack.set s.sp.val s.pc hlt := by
        ext k hk; simp [Vector.getElem_setIfInBounds, Vector.getElem_set]
      simp [exec_call_free nnn s hlt, faultOf, h, completed, effect, policyOf, statusOf, applyPolicy, hset]
  | drw x y n =>
    rcases rangeError_cases s s.i.toNat n.toNat with ⟨h, hr⟩ | ⟨h, h', hr⟩
    · rw [exec_drw_inside x y n s h, faultOf, hr]; rfl
    · rw [exec_drw_outside x y n s h h', faultOf, hr]; rfl
  | skp x =>
    by_cases h : 16 ≤ (s.reg x).toNat
    · simp [exec_skp_noKey x s h, faultOf, h]
    · have hlt : (s.reg x).toNat < 16 := by omega
      simp [exec_skp_key x s hlt, faultOf, h, completed, effect, policyOf, statusOf, hlt]
  | sknp x =>
    by_cases h : 16 ≤ (s.reg x).toNat
    · simp [exec_sknp_noKey x s h, faultOf, h]
    · have hlt : (s.reg x).toNat < 16 := by omega
      cases hk : s.key[(s.reg x).toNat] <;>
        simp [exec_sknp_key x s hlt, faultOf, h, completed, effect, policyOf, statusOf, hlt, hk]
  | ldVxK x =>
    cases h : lowestKey s.key with
    | none => simp only [exec_ldVxK_none x s h, faultOf, completed, effect, policyOf, statusOf, h]; rfl
    | some k => simp only [exec_ldVxK_pressed x s k h, faultOf, completed, effect, policyOf, statusOf, h]; rfl
  | ldB x =>
    rcases rangeError_cases s s.i.toNat 3 with ⟨h, hr⟩ | ⟨_, h, hr⟩
    · rw [exec_ldB_inside x s (by omega), faultOf, hr]; rfl
    · rw [exec_ldB_outside x s h, faultOf, hr]; rfl
  | storeRegs x =>
    rcases rangeError_cases s s.i.toNat (x.val + 1) with ⟨h, hr⟩ | ⟨_, h, hr⟩
    · rw [exec_storeRegs_inside x s (by omega), faultOf, hr]; rfl
    · rw [exec_storeRegs_outside x s (by omega), faultOf, hr]; rfl
  | loadRegs x =>
    rcases rangeError_cases s s.i.toNat (x.val + 1) with ⟨h, hr⟩ | ⟨_, h, hr⟩
    · rw [exec_loadRegs_inside x s (by omega), faultOf, hr]; rfl
    · rw [exec_loadRegs_outside x s (by omega), faultOf, hr]; rfl
  | _ => rfl

theorem exec_of_faultOf_none {i : Instr} {s : State} (h : faultOf i s = none) :
    exec i s = .next (completed i s) := by
  rw [exec_eq, h]; rfl

theorem exec_of_faultOf_some {i : Instr} {s : State} {f : Fault} (h : faultOf i s = some f) :
    exec i s = .next ((s.setStatus (.fatal f)).setBeep false) := by
  rw [exec_eq, h]; rfl

/-- Everything an instruction that answers a next state can have done. -/
theorem exec_cases {i : Instr} {s t : State} (h : exec i s = .next t) :
    (∃ f, faultOf i s = some f ∧ t = (s.setStatus (.fatal f)).setBeep false) ∨
    (faultOf i s = none ∧ t = completed i s) := by
  cases hf : faultOf i s with
  | none => rw [exec_of_faultOf_none hf] at h; injection h with h; exact .inr ⟨rfl, h.symm⟩
  | some f => rw [exec_of_faultOf_some hf] at h; injection h with h; exact .inl ⟨f, rfl, h.symm⟩

/-! ### The invariant -/

theorem addrOperand_toNat_lt (nnn : Addr) : (addrOperand nnn).toNat < 0x1000 := by
  have := nnn.isLt
  simp only [addrOperand, BitVec.toNat_setWidth]
  omega

theorem indexedTarget_toNat_le (nnn : Addr) (b : Byte) : (indexedTarget nnn b).toNat ≤ 0x10FE := by
  have := nnn.isLt
  have := b.isLt
  simp only [indexedTarget, addrOperand, BitVec.toNat_add, BitVec.toNat_setWidth]
  omega

theorem wrap12_toNat_lt (n : Nat) : (wrap12 n).toNat < 0x1000 :=
  Nat.and_lt_two_pow (n := 12) _ (by decide)

theorem glyphAddress_toNat_lt (b : Byte) : (glyphAddress b).toNat < 0x1000 := by
  have : (b &&& 0x0F).toNat < 16 := Nat.and_lt_two_pow (n := 4) _ (by decide)
  simp only [glyphAddress, BitVec.toNat_ofNat, Config.fontBase, Config.fontGlyph]
  exact (Nat.mod_le _ _).trans_lt (by omega)

/-- The sum that FX55 and FX65 put in `I` does not wrap where the access was inside memory (R187, R188). -/
theorem index_add_toNat_le (a : Word) (x : Reg) (h : a.toNat + (x.val + 1) ≤ 0x1000) :
    (a + BitVec.ofNat 16 (x.val + 1)).toNat ≤ 0x1000 := by
  simp only [BitVec.toNat_add, BitVec.toNat_ofNat]
  omega

/-- The slot a return reads lies in the stack. -/
theorem Inv.top_toNat_le {s : State} (h : Inv s) : s.stack[s.sp.val - 1]!.toNat ≤ 0xFFE := by
  have hlt : s.sp.val - 1 < 16 := by omega
  simpa [hlt] using h.slots ⟨s.sp.val - 1, hlt⟩

theorem effect_mem_wf {i : Instr} {s : State} (h : Inv s) (hf : faultOf i s = none) : (effect i s).mem.wf := by
  cases i with
  | ldB x =>
    rcases (rangeError_eq_none_iff ..).mp hf with h0 | hr
    · exact nomatch h0
    · exact Memory.writeList_wf h.memory _ hr
  | storeRegs x =>
    rcases (rangeError_eq_none_iff ..).mp hf with h0 | hr
    · exact nomatch h0
    · exact Memory.writeList_wf h.memory _ (by rw [length_regsUpTo]; exact hr)
  | _ => exact h.memory

theorem effect_index_le {i : Instr} {s : State} (h : Inv s) (hf : faultOf i s = none) :
    (effect i s).i.toNat ≤ 0x1000 := by
  cases i with
  | ldI nnn => exact (addrOperand_toNat_lt nnn).le
  | addI x => exact (wrap12_toNat_lt _).le
  | ldF x => exact (glyphAddress_toNat_lt _).le
  | storeRegs x | loadRegs x =>
    exact index_add_toNat_le s.i x (((rangeError_eq_none_iff ..).mp hf).resolve_left (Nat.succ_ne_zero _))
  | _ => exact h.index

theorem effect_slots_le {i : Instr} {s : State} (h : Inv s) (hpc : s.pc.toNat ≤ 0xFFE) (k : Fin 16) :
    (effect i s).stack[k].toNat ≤ 0xFFE := by
  cases i with
  | call nnn =>
    by_cases hk : s.sp.val = k.val
    · simpa [effect, Vector.getElem_setIfInBounds, hk] using hpc
    · simpa [effect, Vector.getElem_setIfInBounds, hk] using h.slots k
  | _ => exact h.slots k

theorem policyOf_target_le {i : Instr} {s : State} {a : Word} (h : Inv s) (ha : policyOf i s = .set a) :
    a.toNat ≤ 0x10FE := by
  cases i with
  | ret =>
    injection ha with ha
    have := h.top_toNat_le
    bv_omega
  | jp nnn | call nnn =>
    injection ha with ha
    exact ha ▸ (addrOperand_toNat_lt nnn).le.trans (by decide)
  | jpV0 nnn =>
    injection ha with ha
    exact ha ▸ indexedTarget_toNat_le nnn (s.reg 0)
  | seImm | sneImm | seReg | sneReg | skp | sknp =>
    simp only [policyOf, skipIf] at ha
    split at ha <;> exact nomatch ha
  | ldVxK x =>
    simp only [policyOf] at ha
    cases hk : lowestKey s.key <;> rw [hk] at ha <;> exact nomatch ha
  | _ => exact nomatch ha

/-- The bound of R91: a fetched instruction stands at most at 0xFFE, and a target is at most 0x10FE. -/
theorem applyPolicy_policyOf_le {i : Instr} {s : State} (h : Inv s) (hpc : s.pc.toNat ≤ 0xFFE) :
    (applyPolicy (policyOf i s) s.pc).toNat ≤ 0x10FE := by
  cases hp : policyOf i s with
  | advance2 => rw [applyPolicy]; bv_omega
  | advance4 => rw [applyPolicy]; bv_omega
  | set a => exact policyOf_target_le h hp
  | hold => exact h.counter

/-- The invariant speaks of memory, `I`, `pc` and the stack only. -/
theorem Inv.of_fields {s t : State} (h : Inv s) (hm : t.mem = s.mem) (hi : t.i = s.i) (hp : t.pc = s.pc)
    (hs : t.stack = s.stack) : Inv t :=
  ⟨hm ▸ h.memory, hi ▸ h.index, hp ▸ h.counter, hs ▸ h.slots⟩

theorem Inv.completed {i : Instr} {s : State} (h : Inv s) (hpc : s.pc.toNat ≤ 0xFFE) (hf : faultOf i s = none) :
    Inv (completed i s) :=
  ⟨effect_mem_wf h hf, effect_index_le h hf, applyPolicy_policyOf_le h hpc, effect_slots_le h hpc⟩

theorem Inv.exec {i : Instr} {s t : State} (h : Inv s) (hpc : s.pc.toNat ≤ 0xFFE) (ht : exec i s = .next t) :
    Inv t := by
  rcases exec_cases ht with ⟨f, _, rfl⟩ | ⟨hf, rfl⟩
  · exact h.of_fields rfl rfl rfl rfl
  · exact h.completed hpc hf

theorem Inv.tick {s : State} (h : Inv s) : Inv (tick s) :=
  h.of_fields (tick_mem s) (tick_i s) (tick_pc s) (tick_stack s)

theorem Inv.step {s t : State} (h : Inv s) (ht : step s = .next t) : Inv t := by
  rcases step_cases ht with ⟨f, _, rfl⟩ | ⟨w, _, hw, _, rfl⟩ | ⟨w, i, u, hw, _, hu, rfl⟩
  · exact h.of_fields rfl rfl rfl rfl
  · obtain ⟨hpc, _⟩ := (fetchWord_ok_iff s w).mp hw
    have hle : (s.pc + 2).toNat ≤ 0x10FE := by bv_omega
    exact Inv.tick ⟨h.memory, h.index, hle, h.slots⟩
  · obtain ⟨hpc, _⟩ := (fetchWord_ok_iff s w).mp hw
    have hu' : Inv u := (h.of_fields rfl rfl rfl rfl : Inv (s.setOpcode w)).exec hpc hu
    split
    · exact hu'
    · exact hu'.tick

theorem inv_reset : Inv State.reset := ⟨Memory.nil_wf, by decide, by decide, by decide⟩

theorem Inv.applyHostOp {s : State} (h : Inv s) (op : HostOp) : Inv (applyHostOp op s) := by
  cases op with
  | reset => exact inv_reset.of_fields rfl rfl rfl rfl
  | load bytes =>
    by_cases hl : bytes.length ≤ Config.memSize - Config.progStart
    · have hwf : (s.mem.writeList Config.progStart bytes).wf :=
        Memory.writeList_wf h.memory bytes (by simp only [Config.memSize, Config.progStart] at hl ⊢; omega)
      simp only [Machine.applyHostOp, hostLoad, if_pos hl]
      exact ⟨hwf, h.index, h.counter, h.slots⟩
    · simpa only [Machine.applyHostOp, hostLoad, if_neg hl] using h
  | clearDrawFlag => exact h.of_fields rfl rfl rfl rfl
  | setKeys k => exact h.of_fields rfl rfl rfl rfl

theorem Reachable.inv {s : State} (h : Reachable s) : Inv s := by
  induction h with
  | reset => exact inv_reset
  | step _ ht ih => exact ih.step ht
  | host op _ ih => exact ih.applyHostOp op

/-! ### Frames -/

theorem SameExcept.refl {ps : List Part} {s : State} : SameExcept ps s s := fun p _ => by
  cases p <;> simp [Part.same]

theorem SameExcept.append {ps qs : List Part} {s t u : State} (h : SameExcept ps s t) (h' : SameExcept qs t u) :
    SameExcept (ps ++ qs) s u := by
  intro p hp
  obtain ⟨hps, hqs⟩ := not_or.mp (mt List.mem_append.mpr hp)
  have hst := h p hps
  have htu := h' p hqs
  cases p with
  | mem | regs => exact fun k => (htu k).trans (hst k)
  | _ => exact Eq.trans htu hst

theorem SameExcept.mono {ps qs : List Part} {s t : State} (h : SameExcept ps s t) (hs : ps ⊆ qs) :
    SameExcept qs s t := fun p hp => h p fun hm => hp (hs hm)

theorem sameExcept_setReg {s : State} {k : Reg} {b : Byte} : SameExcept [.regs] s (s.setReg k b) := by
  rintro (_ | _) <;> simp [Part.same, State.byteAt]

theorem sameExcept_setFlag {s : State} {b : Bool} : SameExcept [.regs] s (s.setFlag b) := by
  rintro (_ | _) <;> simp [Part.same, State.byteAt]

theorem sameExcept_setRegs {s : State} {v : Vector Byte 16} : SameExcept [.regs] s (s.setRegs v) := by
  rintro (_ | _) <;> simp [Part.same, State.byteAt]

theorem sameExcept_setIndex {s : State} {a : Word} : SameExcept [.index] s (s.setIndex a) := by
  rintro (_ | _) <;> simp [Part.same, State.byteAt]

theorem sameExcept_setPc {s : State} {a : Word} : SameExcept [.pc] s (s.setPc a) := by
  rintro (_ | _) <;> simp [Part.same, State.byteAt]

theorem sameExcept_setMem {s : State} {m : Memory} : SameExcept [.mem] s (s.setMem m) := by
  rintro (_ | _) <;> simp [Part.same]

theorem sameExcept_setStack {s : State} {a : Vector Word 16} {p : Fin 17} :
    SameExcept [.stack, .sp] s (s.setStack a p) := by
  rintro (_ | _) <;> simp [Part.same, State.byteAt]

theorem sameExcept_setStack_sp {s : State} {p : Fin 17} : SameExcept [.sp] s (s.setStack s.stack p) := by
  rintro (_ | _) <;> simp [Part.same, State.byteAt]

theorem sameExcept_setDisplay {s : State} {d : Display} : SameExcept [.disp, .drawFlag] s (s.setDisplay d) := by
  rintro (_ | _) <;> simp [Part.same, State.byteAt]

theorem sameExcept_setDelay {s : State} {b : Byte} : SameExcept [.delay] s (s.setDelay b) := by
  rintro (_ | _) <;> simp [Part.same, State.byteAt]

theorem sameExcept_setSound {s : State} {b : Byte} : SameExcept [.sound] s (s.setSound b) := by
  rintro (_ | _) <;> simp [Part.same, State.byteAt]

theorem sameExcept_setStatus {s : State} {x : Status} : SameExcept [.status] s (s.setStatus x) := by
  rintro (_ | _) <;> simp [Part.same, State.byteAt]

theorem sameExcept_setBeep {s : State} {b : Bool} : SameExcept [.beep] s (s.setBeep b) := by
  rintro (_ | _) <;> simp [Part.same, State.byteAt]

theorem sameExcept_countDraw {s : State} : SameExcept [.draws] s s.countDraw := by
  rintro (_ | _) <;> simp [Part.same, State.byteAt]

/-- An instruction whose check passes writes the parts of `writes`, beside `pc` and the status. -/
theorem sameExcept_effect (i : Instr) (s : State) : SameExcept (writes i) s (effect i s) := by
  cases i with
  | cls => exact sameExcept_setDisplay
  | ret => exact sameExcept_setStack_sp
  | call => exact sameExcept_setStack
  | ldImm | addImm | ldReg | orReg | andReg | xorReg | ldVxDt => exact sameExcept_setReg
  | addReg | subReg | shr | subnReg | shl =>
    exact (sameExcept_setReg.append sameExcept_setFlag).mono (by simp [writes])
  | ldI | ldF => exact sameExcept_setIndex
  | rnd => exact sameExcept_setReg.append sameExcept_countDraw
  | drw => exact sameExcept_setDisplay.append sameExcept_setFlag
  | ldVxK => exact sameExcept_setRegs
  | ldDtVx => exact sameExcept_setDelay
  | ldStVx => exact sameExcept_setSound
  | addI => exact sameExcept_setIndex.append sameExcept_setFlag
  | ldB => exact sameExcept_setMem
  | storeRegs => exact sameExcept_setMem.append sameExcept_setIndex
  | loadRegs => exact sameExcept_setRegs.append sameExcept_setIndex
  | _ => exact .refl

/-- The frame of an instruction, whether it completes or raises its fatal error. -/
theorem sameExcept_exec {i : Instr} {s t : State} (h : exec i s = .next t) :
    SameExcept ([.pc, .status, .beep] ++ writes i) s t := by
  rcases exec_cases h with ⟨f, _, rfl⟩ | ⟨_, rfl⟩
  · exact (sameExcept_setStatus.append sameExcept_setBeep).mono (by simp)
  · exact ((sameExcept_effect i s).append (sameExcept_setPc.append sameExcept_setStatus)).mono
      (List.append_subset.mpr ⟨List.subset_append_right .., by simp⟩)

/-- No instruction writes the keypad (R30). -/
theorem exec_key {i : Instr} {s t : State} (h : exec i s = .next t) : t.key = s.key := by
  refine sameExcept_exec h .key ?_
  cases i <;> simp [writes]

/-- Only FX15 writes the delay timer (R31). -/
theorem exec_dt_of_ne {i : Instr} {s t : State} (hi : ∀ x, i ≠ .ldDtVx x) (h : exec i s = .next t) : t.dt = s.dt := by
  refine sameExcept_exec h .delay ?_
  cases i with
  | ldDtVx x => exact absurd rfl (hi x)
  | _ => simp [writes]

theorem exec_ldDtVx_dt {x : Reg} {s t : State} (h : exec (.ldDtVx x) s = .next t) : t.dt = s.reg x := by
  injection h with h
  exact h ▸ rfl

/-- Only FX18 writes the sound timer (R32). -/
theorem exec_st_of_ne {i : Instr} {s t : State} (hi : ∀ x, i ≠ .ldStVx x) (h : exec i s = .next t) : t.st = s.st := by
  refine sameExcept_exec h .sound ?_
  cases i with
  | ldStVx x => exact absurd rfl (hi x)
  | _ => simp [writes]

theorem exec_ldStVx_st {x : Reg} {s t : State} (h : exec (.ldStVx x) s = .next t) : t.st = s.reg x := by
  injection h with h
  exact h ▸ rfl

/-- No instruction writes `current_opcode`; the step has written it before (R33). -/
theorem exec_currentOpcode {i : Instr} {s t : State} (h : exec i s = .next t) : t.currentOpcode = s.currentOpcode := by
  refine sameExcept_exec h .opcode ?_
  cases i <;> simp [writes]

/-! ### Destination registers -/

theorem reg_setReg_ne {j k : Reg} (h : k ≠ j) (s : State) (b : Byte) : (s.setReg j b).reg k = s.reg k := by
  rw [reg_setReg, if_neg h]

theorem reg_setFlag_ne {k : Reg} (h : k ≠ 15) (s : State) (b : Bool) : (s.setFlag b).reg k = s.reg k :=
  reg_setReg_ne h s _

theorem reg_effect {i : Instr} {k : Reg} (h : ¬ isDestination i k) (s : State) : (effect i s).reg k = s.reg k := by
  cases i with
  | ldImm | addImm | ldReg | orReg | andReg | xorReg | ldVxDt | rnd => exact reg_setReg_ne h ..
  | addReg | subReg | shr | subnReg | shl =>
    obtain ⟨hx, hf⟩ := not_or.mp h
    exact (reg_setFlag_ne hf ..).trans (reg_setReg_ne hx ..)
  | drw | addI => exact reg_setFlag_ne h ..
  | ldVxK x =>
    cases hk : lowestKey s.key with
    | none => simp only [effect, hk]; rfl
    | some j => simp only [effect, hk]; exact reg_setReg_ne h s (keyIndex j)
  | loadRegs x =>
    have hkx : ¬ k.val ≤ x.val := h
    have hout : ¬ (0 ≤ k.val ∧ k.val < 0 + (x.val + 1)) := by omega
    simp only [effect, reg_setIndex, reg_setRegs, getElem_loadFrom, Memory.length_readList, if_neg hout]
    rfl
  | _ => rfl

theorem reg_exec {i : Instr} {s t : State} {k : Reg} (h : exec i s = .next t) (hk : ¬ isDestination i k) :
    t.reg k = s.reg k := by
  rcases exec_cases h with ⟨f, _, rfl⟩ | ⟨_, rfl⟩
  · rfl
  · exact reg_effect hk s

/-! ### Fields that are never read -/

/-- The instruction neither reads nor writes the field that `g` overwrites: its check gives the same with and without
`g`, and `g` may come before or after the state it completes in or reports its fatal error in. -/
structure Ignores (i : Instr) (g : State → State) : Prop where
  fault : ∀ s, faultOf i (g s) = faultOf i s
  completed : ∀ s, completed i (g s) = g (completed i s)
  report : ∀ s f, ((g s).setStatus (.fatal f)).setBeep false = g ((s.setStatus (.fatal f)).setBeep false)

theorem Ignores.exec {i : Instr} {g : State → State} (hg : Ignores i g) {s t : State} (h : exec i s = .next t) :
    exec i (g s) = .next (g t) := by
  rcases exec_cases h with ⟨f, hf, rfl⟩ | ⟨hf, rfl⟩
  · rw [exec_of_faultOf_some ((hg.fault s).trans hf), hg.report]
  · rw [exec_of_faultOf_none ((hg.fault s).trans hf), hg.completed]

theorem ignores_setOpcode (i : Instr) (w : Word) : Ignores i (·.setOpcode w) where
  fault s := by cases i <;> rfl
  completed s := by cases i <;> rfl
  report _ _ := rfl

theorem ignores_setSound {i : Instr} (h : ∀ x, i ≠ .ldStVx x) (b : Byte) : Ignores i (·.setSound b) where
  fault s := by cases i <;> rfl
  completed s := by
    cases i with
    | ldStVx x => exact absurd rfl (h x)
    | _ => rfl
  report _ _ := rfl

theorem ignores_setKeys {i : Instr} (h : ∀ x, i ≠ .skp x ∧ i ≠ .sknp x ∧ i ≠ .ldVxK x) (k : Vector Bool 16) :
    Ignores i (·.setKeys k) where
  fault s := by cases i <;> rfl
  completed s := by
    cases i with
    | skp x | sknp x | ldVxK x => simpa using h x
    | _ => rfl
  report _ _ := rfl

/-- FX18 overwrites the sound timer without reading it. -/
theorem exec_ldStVx_setSound (x : Reg) (s : State) (b : Byte) :
    exec (.ldStVx x) (s.setSound b) = exec (.ldStVx x) s := rfl

/-! ### Steps that are not fatal -/

/-- A step that is not fatal fetches a word and ends with the tick, after a report of the word or an instruction whose
check passed. -/
theorem step_cases_of_not_failed {s t : State} (h : step s = .next t) (hf : t.failed = false) :
    ∃ w u, fetchWord s = .ok w ∧ t = tick u ∧
      ((∃ e, decodeWord w = .error e ∧ u = ((s.setOpcode w).setPc (s.pc + 2)).setStatus (.decodeError w)) ∨
        ∃ i, decodeWord w = .ok i ∧ exec i (s.setOpcode w) = .next u) := by
  rcases step_cases h with ⟨f, _, rfl⟩ | ⟨w, e, hw, he, rfl⟩ | ⟨w, i, u, hw, hi, hu, rfl⟩
  · exact nomatch hf
  · exact ⟨w, _, hw, rfl, .inl ⟨e, he, rfl⟩⟩
  · by_cases hfat : u.status.isFatal = true
    · rw [if_pos hfat] at hf
      exact absurd hfat (Bool.eq_false_iff.mp hf)
    · exact ⟨w, u, hw, if_neg hfat, .inr ⟨i, hi, hu⟩⟩

/-- The beep of a tick is given exactly when the sound timer counts down from 1 (R213). -/
theorem tick_beep_iff (s : State) : (tick s).beep = true ↔ s.st.toNat = 1 := by
  rw [tick_beep, beq_iff_eq, ← BitVec.toNat_inj]
  rfl

end Sys2Proof.Machine

namespace Sys2Proof.Proofs

open Sys2Proof.Machine

/-- Settles O3: an instruction keeps each bound (`Inv.completed`), its policy gives a `pc` in range because the fetch was
in range, and the tick touches no field of the invariant. -/
theorem stepKeepsInvariant : Obligations.StepKeepsInvariant := fun _ _ h ht => h.step ht

/-- Settles O4, by induction on the run: the invariant holds at reset, and steps and host operations keep it. -/
theorem reachableStatesMeetInvariant : Obligations.ReachableStatesMeetInvariant := fun _ h => h.inv

/-- Settles O2: the listed memory is empty, the bounds are of fixed values. -/
theorem resetMeetsInvariant : Obligations.ResetMeetsInvariant := inv_reset

/-- Settles O19, by the frame of each update an instruction is made of. -/
theorem onlyTheNamedInstructionsWriteEachPart : Obligations.OnlyTheNamedInstructionsWriteEachPart :=
  fun _ _ _ h => sameExcept_exec h

/-- Settles O20, by the register each update of `effect` writes. -/
theorem onlyDestinationRegistersChange : Obligations.OnlyDestinationRegistersChange := fun _ _ _ _ h hk => reg_exec h hk

/-- Settles O22: overwriting either field commutes with the instruction, and FX18 overwrites ST itself. -/
theorem opcodeAndSoundTimerAreNeverRead : Obligations.OpcodeAndSoundTimerAreNeverRead := by
  intro i s t h
  refine ⟨fun w => (ignores_setOpcode i w).exec h, fun b => ?_⟩
  cases i with
  | ldStVx x => exact (exec_ldStVx_setSound x s b).trans h
  | _ => exact (ignores_setSound (by simp) b).exec h

/-- Settles O23: overwriting the keypad commutes with the instruction, and no instruction lists it among its parts. -/
theorem onlyKeyInstructionsReadTheKeypad : Obligations.OnlyKeyInstructionsReadTheKeypad :=
  fun _ _ _ h => ⟨exec_key h, fun hi k => (ignores_setKeys hi k).exec h⟩

/-- Settles O17: the tick counts down the timers the instruction leaves, and only FX15 and FX18 write one. -/
theorem timersCountDownUnlessWritten : Obligations.TimersCountDownUnlessWritten := by
  intro s t h hf
  obtain ⟨w, u, hw, rfl, ⟨e, he, rfl⟩ | ⟨i, hi, hu⟩⟩ := step_cases_of_not_failed h hf
  · have hne : ∀ j, decodeWord w ≠ .ok j := fun j hj => nomatch he.symm.trans hj
    exact ⟨w, hw, by simp, fun x hx => absurd hx (hne _), fun _ => by simp [countDown_toNat],
      fun x hx => absurd hx (hne _), fun _ => ⟨by simp [countDown_toNat], tick_beep_iff _⟩⟩
  · have hop : u.currentOpcode = w := exec_currentOpcode hu
    refine ⟨w, hw, ?_⟩
    simp only [hi, tick_dt, tick_st, tick_beep_iff, tick_currentOpcode, countDown_toNat, Except.ok.injEq, ne_eq]
    refine ⟨hop, ?_, fun hne => ?_, ?_, fun hne => ?_⟩
    · rintro x rfl
      rw [exec_ldDtVx_dt hu, reg_setOpcode]
    · rw [exec_dt_of_ne hne hu, setOpcode_dt]
    · rintro x rfl
      rw [exec_ldStVx_st hu, reg_setOpcode]
      exact ⟨rfl, Iff.rfl⟩
    · rw [exec_st_of_ne hne hu, setOpcode_st]
      exact ⟨rfl, Iff.rfl⟩

/-- Settles O1, field by field; above the font the address is past the end of the font table. -/
theorem resetGivesEveryFieldItsValue : Obligations.ResetGivesEveryFieldItsValue := by
  refine ⟨by decide, fun a ha _ => ?_, by decide, rfl, rfl, by decide, rfl, ?_, rfl, by decide, rfl, rfl, rfl⟩
  · exact List.getD_eq_default _ _ ha
  · exact cell_clearDisplay

end Sys2Proof.Proofs
end

section
/-! SUPPORT. The memory after an instruction: a byte outside the stored range is as before (`byteAt_exec`), a byte a dump
stored is the register's (`read_dump`). Then the statements of the family 20_memory. -/

namespace Sys2Proof.Machine

open Sys2Proof.Claims

theorem Memory.read_writeList_outside (m : Memory) {a b : Nat} {bs : List Byte} (h : ¬ (a ≤ b ∧ b < a + bs.length)) :
    (m.writeList a bs).read b = m.read b := by
  rw [Memory.read_writeList, if_neg h]

/-- FX33 stores three bytes and FX55 the `X + 1` registers up to `X`; the other effects leave the memory (R57). -/
theorem byteAt_effect {i : Instr} {s : State} {a : Nat} (h : ¬ (s.i.toNat ≤ a ∧ a < s.i.toNat + storedBytes i)) :
    (effect i s).byteAt a = s.byteAt a := by
  cases i with
  | ldB x => exact Memory.read_writeList_outside s.mem h
  | storeRegs x => exact Memory.read_writeList_outside s.mem (by rwa [length_regsUpTo])
  | _ => rfl

theorem byteAt_exec {i : Instr} {s t : State} {a : Nat} (h : exec i s = .next t)
    (ha : ¬ (s.i.toNat ≤ a ∧ a < s.i.toNat + storedBytes i)) : t.byteAt a = s.byteAt a := by
  rcases exec_cases h with ⟨f, _, rfl⟩ | ⟨_, rfl⟩
  · rfl
  · exact byteAt_effect ha

/-- After the registers up to `x` are stored from an address, the byte of register `k` stands `k` above it (R187). -/
theorem read_dump (m : Memory) (a : Nat) (s : State) {x k : Reg} (h : k ≤ x) :
    (m.writeList a (s.regsUpTo x)).read (a + k.val) = s.reg k := by
  have hk : k.val ≤ x.val := h
  rw [Memory.read_writeList, length_regsUpTo, if_pos (by omega), Nat.add_sub_cancel_left, getD_regsUpTo s x k h]

end Sys2Proof.Machine

namespace Sys2Proof.Proofs

open Sys2Proof.Machine

/-- Settles O21: a fatal error leaves the memory, and an effect stores only in its range. -/
theorem onlyTheStoredBytesChange : Obligations.OnlyTheStoredBytesChange := fun _ _ _ _ h ha => byteAt_exec h ha

/-- Settles O56: both addresses of the fetch are of the dump, and `V[k]` stands just above `V[j]`. -/
theorem storedCodeIsFetched : Obligations.StoredCodeIsFetched := by
  intro x s j k hx hkj hkx
  have hk : k.val ≤ x.val := hkx
  have hjx : j ≤ x := Fin.le_def.mpr (by omega)
  refine ⟨_, exec_storeRegs_inside x s hx, fun u hmem hpc => ?_⟩
  have hhi : u.byteAt u.pc.toNat = s.reg j := by
    rw [State.byteAt, hmem, hpc]
    exact read_dump s.mem _ s hjx
  have hlo : u.byteAt (u.pc.toNat + 1) = s.reg k := by
    rw [State.byteAt, hmem, hpc, Nat.add_assoc, ← hkj]
    exact read_dump s.mem _ s hkx
  exact ⟨joinBytes (s.reg j) (s.reg k), (fetchWord_ok_iff u _).mpr ⟨by omega, by rw [hhi, hlo]⟩, joinBytes_toNat ..⟩

end Sys2Proof.Proofs
end

section
/-! SUPPORT. Decoding and encoding as one relation: a word decodes to an instruction exactly when it is the encoding of
that instruction and the instruction is well-formed (`decodeWord_eq_ok_iff`), which is to match its row
(`encode_eq_iff_row`). Then the step around its instruction, and the statements of the family 30_encoding. -/

namespace Sys2Proof

open Sys2Proof.Claims

/-! ### The encoding of an instruction and its row (R71, R74) -/

/-- A whole-word row fixes every bit. -/
theorem whole_eq_iff_row {w p : Word} : p = w ↔ w &&& 0xFFFF = p ∧ True := by
  have h : w &&& 0xFFFF = w := BitVec.and_allOnes
  rw [h, and_true, eq_comm]

theorem wordNNN_eq_iff_fields {f : Nibble} {nnn : Addr} {w : Word} :
    wordNNN f nnn = w ↔ fieldF w = f ∧ fieldNNN w = nnn := by
  constructor
  · rintro rfl; exact ⟨fieldF_wordNNN .., fieldNNN_wordNNN ..⟩
  · rintro ⟨rfl, rfl⟩; exact wordNNN_fields w

theorem wordXNN_eq_iff_fields {f : Nibble} {x : Reg} {nn : Byte} {w : Word} :
    wordXNN f x nn = w ↔ fieldF w = f ∧ fieldX w = x ∧ fieldNN w = nn := by
  constructor
  · rintro rfl; exact ⟨fieldF_wordXNN .., fieldX_wordXNN .., fieldNN_wordXNN ..⟩
  · rintro ⟨rfl, rfl, rfl⟩; exact wordXNN_fields w

theorem wordXYN_eq_iff_fields {f n : Nibble} {x y : Reg} {w : Word} :
    wordXYN f x y n = w ↔ fieldF w = f ∧ fieldX w = x ∧ fieldY w = y ∧ fieldN w = n := by
  constructor
  · rintro rfl; exact ⟨fieldF_wordXYN .., fieldX_wordXYN .., fieldY_wordXYN .., fieldN_wordXYN ..⟩
  · rintro ⟨rfl, rfl, rfl, rfl⟩; exact wordXYN_fields w

/-- The rows whose low twelve bits are an operand: SYS and families 1, 2, A and B. -/
theorem wordNNN_eq_iff_row {f : Nibble} {nnn : Addr} {w : Word} :
    wordNNN f nnn = w ↔ w &&& 0xF000 = f ++ 0#12 ∧ nnn.toNat = w.toNat % 4096 := by
  rw [wordNNN_eq_iff_fields, mask_F000, ← fieldNNN_toNat, BitVec.toNat_inj, eq_comm (a := nnn)]

/-- The rows of families 3, 4, 6, 7 and C: the low byte is an operand. -/
theorem wordXNN_eq_iff_row {f : Nibble} {x : Reg} {nn : Byte} {w : Word} :
    wordXNN f x nn = w ↔ w &&& 0xF000 = f ++ 0#12 ∧ x.val = w.toNat / 256 % 16 ∧ nn.toNat = w.toNat % 256 := by
  rw [wordXNN_eq_iff_fields, mask_F000, ← fieldX_val, ← fieldNN_toNat, BitVec.toNat_inj, Fin.val_inj,
    eq_comm (a := x), eq_comm (a := nn)]

/-- The rows of families E and F: the low byte is the sub-selector. -/
theorem wordXNN_eq_iff_subRow {f : Nibble} {x : Reg} {nn : Byte} {w : Word} :
    wordXNN f x nn = w ↔ w &&& 0xF0FF = f ++ 0#4 ++ nn ∧ x.val = w.toNat / 256 % 16 := by
  rw [wordXNN_eq_iff_fields, mask_F0FF, ← fieldX_val, Fin.val_inj, eq_comm (a := x), and_right_comm, and_assoc]

/-- The rows of families 5, 9 and D: the low nibble is an operand. -/
theorem wordXYN_eq_iff_row {f n : Nibble} {x y : Reg} {w : Word} :
    wordXYN f x y n = w ↔ w &&& 0xF000 = f ++ 0#12 ∧
      x.val = w.toNat / 256 % 16 ∧ y.val = w.toNat / 16 % 16 ∧ n.toNat = w.toNat % 16 := by
  rw [wordXYN_eq_iff_fields, mask_F000, ← fieldX_val, ← fieldY_val, ← fieldN_toNat, BitVec.toNat_inj, Fin.val_inj,
    Fin.val_inj, eq_comm (a := x), eq_comm (a := y), eq_comm (a := n)]

/-- The rows of family 8: the low nibble is the sub-selector. -/
theorem wordXYN_eq_iff_subRow {f n : Nibble} {x y : Reg} {w : Word} :
    wordXYN f x y n = w ↔ w &&& 0xF00F = f ++ 0#8 ++ n ∧
      x.val = w.toNat / 256 % 16 ∧ y.val = w.toNat / 16 % 16 := by
  rw [wordXYN_eq_iff_fields, mask_F00F, ← fieldX_val, ← fieldY_val, Fin.val_inj, Fin.val_inj, eq_comm (a := x),
    eq_comm (a := y)]
  tauto

/-- A word is the encoding of an instruction exactly when it matches the instruction's row with its operands (R74). -/
theorem encode_eq_iff_row (i : Instr) (w : Word) :
    encode i = w ↔ w &&& (rowOf i).1 = (rowOf i).2 ∧ operandsAreFields i w.toNat := by
  cases i with
  | cls | ret => exact whole_eq_iff_row
  | sys | jp | call | ldI | jpV0 => exact wordNNN_eq_iff_row
  | seImm | sneImm | ldImm | addImm | rnd => exact wordXNN_eq_iff_row
  | seReg | sneReg | drw => exact wordXYN_eq_iff_row
  | ldReg | orReg | andReg | xorReg | addReg | subReg | shr | subnReg | shl => exact wordXYN_eq_iff_subRow
  | _ => exact wordXNN_eq_iff_subRow

/-! ### Well-formedness in terms of the word (R75) -/

theorem wordNNN_inj {f : Nibble} {a b : Addr} : wordNNN f a = wordNNN f b ↔ a = b := by
  rw [wordNNN_eq_iff_fields, fieldF_wordNNN, fieldNNN_wordNNN, eq_self, true_and, eq_comm]

/-- The words 00E0 and 00EE are no encoding of a well-formed SYS (D3). -/
theorem wellFormed_iff (i : Instr) :
    i.wellFormed = true ↔ ((∃ nnn, i = .sys nnn) → encode i ≠ 0x00E0 ∧ encode i ≠ 0x00EE) := by
  cases i with
  | sys nnn =>
    have hcls : wordNNN 0#4 nnn = 0x00E0#16 ↔ nnn = 0x0E0#12 := wordNNN_inj (b := 0x0E0)
    have hret : wordNNN 0#4 nnn = 0x00EE#16 ↔ nnn = 0x0EE#12 := wordNNN_inj (b := 0x0EE)
    simp [Instr.wellFormed, encode, hcls, hret]
  | _ => simp [Instr.wellFormed]

/-! ### Decoding what was encoded -/

theorem decodeWord_encode {i : Instr} (h : i.wellFormed = true) : decodeWord (encode i) = .ok i := by
  rw [decodeWord_eq_decodeByFamily]
  cases i with
  | cls | ret => rfl
  | sys nnn =>
    obtain ⟨hcls, hret⟩ := (wellFormed_iff _).mp h ⟨nnn, rfl⟩
    have hF : fieldF (encode (.sys nnn)) = 0x0 := Laws.FamilyNibble.sys nnn
    have hnnn : fieldNNN (encode (.sys nnn)) = nnn := fieldNNN_wordNNN ..
    rw [decodeByFamily, if_pos hF, decodeFamily0, if_neg hcls, if_neg hret, hnnn]
  | jp | call | ldI | jpV0 => simp [encode, decodeByFamily, fieldF_wordNNN, fieldNNN_wordNNN]
  | seImm | sneImm | ldImm | addImm | rnd =>
    simp [encode, decodeByFamily, fieldF_wordXNN, fieldX_wordXNN, fieldNN_wordXNN]
  | seReg | sneReg | drw =>
    simp [encode, decodeByFamily, fieldF_wordXYN, fieldX_wordXYN, fieldY_wordXYN, fieldN_wordXYN]
  | ldReg | orReg | andReg | xorReg | addReg | subReg | shr | subnReg | shl =>
    simp [encode, decodeByFamily, decodeFamily8, fieldF_wordXYN, fieldX_wordXYN, fieldY_wordXYN, fieldN_wordXYN]
  | skp | sknp => simp [encode, decodeByFamily, decodeFamilyE, fieldF_wordXNN, fieldX_wordXNN, fieldNN_wordXNN]
  | _ => simp [encode, decodeByFamily, decodeFamilyF, fieldF_wordXNN, fieldX_wordXNN, fieldNN_wordXNN]

/-! ### Encoding what was decoded -/

section
variable {w : Word} {i : Instr}

theorem encode_of_decodeFamily0 (hF : fieldF w = 0x0) (h : decodeFamily0 w = .ok i) :
    encode i = w ∧ i.wellFormed = true := by
  unfold decodeFamily0 at h
  split_ifs at h with hcls hret <;> cases h
  · exact ⟨hcls.symm, rfl⟩
  · exact ⟨hret.symm, rfl⟩
  · have henc : encode (.sys (fieldNNN w)) = w := wordNNN_eq_iff_fields.mpr ⟨hF, rfl⟩
    exact ⟨henc, (wellFormed_iff _).mpr fun _ => henc.symm ▸ ⟨hcls, hret⟩⟩

theorem encode_of_decodeFamily8 (hF : fieldF w = 0x8) (h : decodeFamily8 w = .ok i) :
    encode i = w ∧ i.wellFormed = true := by
  unfold decodeFamily8 at h
  split_ifs at h <;> cases h <;> exact ⟨wordXYN_eq_iff_fields.mpr ⟨hF, rfl, rfl, ‹_›⟩, rfl⟩

theorem encode_of_decodeFamilyE (hF : fieldF w = 0xE) (h : decodeFamilyE w = .ok i) :
    encode i = w ∧ i.wellFormed = true := by
  unfold decodeFamilyE at h
  split_ifs at h <;> cases h <;> exact ⟨wordXNN_eq_iff_fields.mpr ⟨hF, rfl, ‹_›⟩, rfl⟩

theorem encode_of_decodeFamilyF (hF : fieldF w = 0xF) (h : decodeFamilyF w = .ok i) :
    encode i = w ∧ i.wellFormed = true := by
  unfold decodeFamilyF at h
  split_ifs at h <;> cases h <;> exact ⟨wordXNN_eq_iff_fields.mpr ⟨hF, rfl, ‹_›⟩, rfl⟩

/-- By the family of the word, in order from 0 to F; only families 0, 8, E and F choose further. -/
theorem encode_of_decodeWord (h : decodeWord w = .ok i) : encode i = w ∧ i.wellFormed = true := by
  rw [decodeWord_eq_decodeByFamily] at h
  rcases nibble_cases (fieldF w) with hF | hF | hF | hF | hF | hF | hF | hF | hF | hF | hF | hF | hF | hF | hF | hF
  all_goals simp only [decodeByFamily, hF, BitVec.ofNat_eq_ofNat, BitVec.reduceEq, reduceIte, Except.ok.injEq] at h
  · exact encode_of_decodeFamily0 hF h
  iterate 2 · exact h ▸ ⟨wordNNN_eq_iff_fields.mpr ⟨hF, rfl⟩, rfl⟩
  iterate 2 · exact h ▸ ⟨wordXNN_eq_iff_fields.mpr ⟨hF, rfl, rfl⟩, rfl⟩
  · exact h ▸ ⟨wordXYN_eq_iff_fields.mpr ⟨hF, rfl, rfl, rfl⟩, rfl⟩
  iterate 2 · exact h ▸ ⟨wordXNN_eq_iff_fields.mpr ⟨hF, rfl, rfl⟩, rfl⟩
  · exact encode_of_decodeFamily8 hF h
  · exact h ▸ ⟨wordXYN_eq_iff_fields.mpr ⟨hF, rfl, rfl, rfl⟩, rfl⟩
  iterate 2 · exact h ▸ ⟨wordNNN_eq_iff_fields.mpr ⟨hF, rfl⟩, rfl⟩
  · exact h ▸ ⟨wordXNN_eq_iff_fields.mpr ⟨hF, rfl, rfl⟩, rfl⟩
  · exact h ▸ ⟨wordXYN_eq_iff_fields.mpr ⟨hF, rfl, rfl, rfl⟩, rfl⟩
  · exact encode_of_decodeFamilyE hF h
  · exact encode_of_decodeFamilyF hF h

/-- The decoder and the encoder are one relation between words and well-formed instructions. -/
theorem decodeWord_eq_ok_iff : decodeWord w = .ok i ↔ encode i = w ∧ i.wellFormed = true := by
  refine ⟨encode_of_decodeWord, ?_⟩
  rintro ⟨rfl, hwf⟩
  exact decodeWord_encode hwf

theorem decodeWord_eq_ok_iff_row : decodeWord w = .ok i ↔
    w &&& (rowOf i).1 = (rowOf i).2 ∧ operandsAreFields i w.toNat ∧
      ((∃ nnn, i = .sys nnn) → w ≠ 0x00E0 ∧ w ≠ 0x00EE) := by
  rw [decodeWord_eq_ok_iff, wellFormed_iff, ← and_assoc, ← encode_eq_iff_row]
  exact and_congr_right fun h => by rw [h]

end

/-! ### The words that decode to nothing (R77 to R80) -/

section
variable {w : Word}

theorem decodeFamily0_ok : ∃ i, decodeFamily0 w = .ok i := by
  unfold decodeFamily0
  split_ifs <;> exact ⟨_, rfl⟩

theorem decodeFamily8_rejects_iff :
    (∀ i, decodeFamily8 w ≠ .ok i) ↔ w.toNat % 16 ∈ [0x8, 0x9, 0xA, 0xB, 0xC, 0xD, 0xF] := by
  rw [← fieldN_toNat, decodeFamily8]
  rcases nibble_cases (fieldN w) with h | h | h | h | h | h | h | h | h | h | h | h | h | h | h | h <;> simp [h]

theorem decodeFamilyE_rejects_iff : (∀ i, decodeFamilyE w ≠ .ok i) ↔ w.toNat % 256 ∉ [0x9E, 0xA1] := by
  rw [← fieldNN_toNat, decodeFamilyE]
  split_ifs <;> simp_all [← BitVec.toNat_inj]

theorem decodeFamilyF_rejects_iff : (∀ i, decodeFamilyF w ≠ .ok i) ↔
    w.toNat % 256 ∉ [0x07, 0x0A, 0x15, 0x18, 0x1E, 0x29, 0x33, 0x55, 0x65] := by
  rw [← fieldNN_toNat, decodeFamilyF]
  split_ifs <;> simp_all [← BitVec.toNat_inj]

/-- The decode errors of R80: every other family has a row for each of its words. -/
theorem decodeWord_rejects_iff : (∀ i, decodeWord w ≠ .ok i) ↔
    (w.toNat / 4096 = 0x8 ∧ w.toNat % 16 ∈ [0x8, 0x9, 0xA, 0xB, 0xC, 0xD, 0xF]) ∨
    (w.toNat / 4096 = 0xE ∧ w.toNat % 256 ∉ [0x9E, 0xA1]) ∨
    (w.toNat / 4096 = 0xF ∧ w.toNat % 256 ∉ [0x07, 0x0A, 0x15, 0x18, 0x1E, 0x29, 0x33, 0x55, 0x65]) := by
  rw [← decodeFamily8_rejects_iff, ← decodeFamilyE_rejects_iff, ← decodeFamilyF_rejects_iff, ← fieldF_toNat,
    decodeWord_eq_decodeByFamily, decodeByFamily]
  obtain ⟨i, h0⟩ := decodeFamily0_ok (w := w)
  rcases nibble_cases (fieldF w) with hF | hF | hF | hF | hF | hF | hF | hF | hF | hF | hF | hF | hF | hF | hF | hF
  all_goals simp [hF, h0]

/-- The SYS words: family 0 but for the two that match first (R75, D3). -/
theorem decodeWord_eq_sys_iff :
    (∃ nnn, decodeWord w = .ok (.sys nnn)) ↔ w.toNat / 4096 = 0 ∧ w ≠ 0x00E0 ∧ w ≠ 0x00EE := by
  have hrow : w &&& 0xF000 = 0x0000 ↔ w.toNat / 4096 = 0 := by
    rw [← fieldF_toNat]
    exact (mask_F000 w 0).trans BitVec.toNat_inj.symm
  simp only [decodeWord_eq_ok_iff_row, rowOf, operandsAreFields, hrow]
  constructor
  · rintro ⟨nnn, hF, _, hne⟩; exact ⟨hF, hne ⟨nnn, rfl⟩⟩
  · rintro ⟨hF, hne⟩; exact ⟨fieldNNN w, hF, fieldNNN_toNat w, fun _ => hne⟩

end

end Sys2Proof

namespace Sys2Proof.Machine

open Sys2Proof.Claims

/-! ### A step by the outcome of its fetch (R86 to R89) -/

section
variable {s : State}

theorem step_of_fetch_error {f : Fault} (hf : fetchWord s = .error f) : step s = .next (fatalIn s f) := by
  rw [step, hf]; rfl

theorem step_of_decoded {w : Word} {i : Instr} (hw : fetchWord s = .ok w) (hi : decodeWord w = .ok i) :
    step s = endStep (exec i (s.setOpcode w)) := by
  simp only [step, hw, hi]; rfl

theorem fetchWord_of_in_range (h : s.pc.toNat ≤ 0xFFE) :
    fetchWord s = .ok (joinBytes (s.byteAt s.pc.toNat) (s.byteAt (s.pc.toNat + 1))) :=
  (fetchWord_ok_iff s _).mpr ⟨h, rfl⟩

theorem fetchWord_of_out_of_range (h : 0xFFE < s.pc.toNat) :
    fetchWord s = .error (.outOfRangeAddress (max s.pc.toNat 0x1000) s.pc) := by
  rcases fetchWord_cases s with ⟨h', _⟩ | ⟨_, hf⟩
  · omega
  · exact hf

theorem decodeWord_of_decodeBytes {hi lo : Byte} {i : Instr} (h : decodeBytes [hi, lo] = .ok (i, [])) :
    decodeWord (joinBytes hi lo) = .ok i := by
  rw [decodeBytes] at h
  cases hd : decodeWord (joinBytes hi lo) with
  | ok j => rw [hd] at h; cases h; rfl
  | error e => rw [hd] at h; exact nomatch h

end

/-! ### The program-counter policy (R90) -/

theorem indexedTarget_eq_ofNat (nnn : Addr) (b : Byte) :
    indexedTarget nnn b = BitVec.ofNat 16 (nnn.toNat + b.toNat) := by
  simp only [indexedTarget, addrOperand]
  bv_omega

theorem lowestKey_isSome_iff (key : Vector Bool 16) : (lowestKey key).isSome ↔ ∃ k : Fin 16, key[k] = true := by
  rw [← Option.ne_none_iff_isSome, ne_eq, lowestKey_eq_none]
  simp

theorem applyPolicy_skipIf_not (b : Bool) (pc : Word) :
    applyPolicy (skipIf !b) pc = if b then pc + 2 else pc + 4 := by cases b <;> rfl

/-- The policy of the inversion of `exec` is that of the table. -/
theorem applyPolicy_policyOf (i : Instr) (s : State) : applyPolicy (policyOf i s) s.pc = policyPc i s := by
  cases i with
  | seImm | seReg | sneImm | sneReg | skp => simp [policyOf, policyPc]
  | sknp x => exact applyPolicy_skipIf_not s.key[(s.reg x).toNat]! s.pc
  | jpV0 nnn => exact indexedTarget_eq_ofNat nnn (s.reg 0)
  | ldVxK x =>
    simp only [policyPc, ← lowestKey_isSome_iff, policyOf]
    cases lowestKey s.key <;> rfl
  | _ => rfl

theorem exec_pc_of_not_failed {i : Instr} {s t : State} (h : exec i s = .next t) (hf : t.failed = false) :
    t.pc = policyPc i s := by
  rcases exec_cases h with ⟨f, _, rfl⟩ | ⟨_, rfl⟩
  · exact nomatch hf
  · exact applyPolicy_policyOf i s

theorem step_pc_of_rejected {s t : State} {w : Word} (hw : fetchWord s = .ok w) (hne : ∀ i, decodeWord w ≠ .ok i)
    (h : step s = .next t) : t.pc = s.pc + 2 := by
  rcases step_cases h with ⟨f, hf, _⟩ | ⟨_, _, _, _, rfl⟩ | ⟨w', i, _, hw', hi, _⟩
  · exact nomatch hf.symm.trans hw
  · simp
  · injection hw'.symm.trans hw with hww
    exact absurd (hww ▸ hi) (hne i)

end Sys2Proof.Machine

namespace Sys2Proof.Proofs

open Sys2Proof.Machine

/-- Settles O6, by the fields of the encoded word, one form of word at a time (`decodeWord_encode`). -/
theorem decodeInvertsEncode : Obligations.DecodeInvertsEncode := by
  intro i rest h
  rw [encodeBytes, decodeBytes_wordBytes, decodeWord_encode h]

/-- Settles O7, family by family: a word is made of its fields. -/
theorem encodeInvertsDecode : Obligations.EncodeInvertsDecode := fun _ _ => encode_of_decodeWord

/-- Settles O8: to decode to an instruction is to be its encoding, and to be its encoding is to match its row. -/
theorem eachWordDecodesByItsRow : Obligations.EachWordDecodesByItsRow := fun _ _ => decodeWord_eq_ok_iff_row

/-- Settles O9, by the choice inside families 8, E and F; SYS by its row. -/
theorem illegalWordsAreExactlyTheListedOnes : Obligations.IllegalWordsAreExactlyTheListedOnes :=
  ⟨fun _ => decodeWord_rejects_iff, fun _ => decodeWord_eq_sys_iff⟩

/-- Settles O18: an instruction that is not fatal ends by its policy (`applyPolicy_policyOf`), and the report of a word
that is none advances by 2. -/
theorem everyInstructionFollowsItsPcPolicy : Obligations.EveryInstructionFollowsItsPcPolicy :=
  ⟨fun _ _ _ => exec_pc_of_not_failed, fun _ _ _ => step_pc_of_rejected⟩

/-- Settles O10, by running the decoder on the eleven fixed words. -/
theorem writtenWordsDecodeRight : Obligations.WrittenWordsDecodeRight := by
  unfold Obligations.WrittenWordsDecodeRight
  decide

/-- Settles O11: the fetch is in range and reads the two bytes, and `endStep` adds the tick. -/
theorem stepRunsTheInstructionAtPc : Obligations.StepRunsTheInstructionAtPc := by
  intro s i hpc hdec
  rw [step_of_decoded (fetchWord_of_in_range hpc) (decodeWord_of_decodeBytes hdec)]
  cases exec i (s.setOpcode (joinBytes (s.byteAt s.pc.toNat) (s.byteAt (s.pc.toNat + 1)))) with
  | next t => exact endStep_next t
  | fault f => rfl
  | refused r => rfl

/-- Settles O12: the failed fetch is all of the step, and the first address above memory is 0x1000 only from 0xFFF. -/
theorem fetchOutOfRangeIsFatal : Obligations.FetchOutOfRangeIsFatal := by
  intro s h
  have haddr : (if s.pc.toNat = 0xFFF then 0x1000 else s.pc.toNat) = max s.pc.toNat 0x1000 := by
    split <;> omega
  rw [haddr]
  exact step_of_fetch_error (fetchWord_of_out_of_range h)

end Sys2Proof.Proofs
end

section
/-! SUPPORT. The control flow of the families 0x0 to 0x2: the values SYS, JP and CALL compute, and the frame of an
instruction that ends normally. Then the statements of the family 40_family0-2_flow. -/

namespace Sys2Proof.Machine

theorem addrOperand_toNat (nnn : Addr) : (addrOperand nnn).toNat = nnn.toNat :=
  BitVec.toNat_setWidth_of_le (by decide)

/-- The word SYS reports is its own (R100), for the two terms no word stands for too (log entry 12). -/
theorem encode_sys (nnn : Addr) : encode (.sys nnn) = sysWord nnn :=
  (BitVec.setWidth_eq_append (by decide)).symm

/-- An instruction that has written the parts `ps` ends by writing `pc` and the status. -/
theorem SameExcept.setPc_setStatus {ps : List Part} {s u : State} {a : Word} {x : Status} (h : SameExcept ps s u) :
    SameExcept (ps ++ [.pc, .status]) s ((u.setPc a).setStatus x) :=
  h.append (sameExcept_setPc.append sameExcept_setStatus)

/-- After a push of `a`, a return goes past `a` and leaves the stack pointer as it was before the push (R26, R102). -/
theorem exec_ret_after_push {s u : State} {a : Word} (h : s.sp.val < 16) (hsp : u.sp.val = s.sp.val + 1)
    (hstack : u.stack = s.stack.set s.sp.val a h) : ∃ r, exec .ret u = .next r ∧ r.pc = a + 2 ∧ r.sp = s.sp := by
  refine ⟨_, exec_ret_full u (by omega), ?_, ?_⟩
  · simp [hstack, hsp]
  · exact Fin.ext (by simp [hsp])

end Sys2Proof.Machine

namespace Sys2Proof.Proofs

open Sys2Proof.Machine

/-- Settles O25: a pop moves the stack pointer only; with the stack empty the answer is the fatal error
(`exec_ret_empty`). -/
theorem returnGoesPastTheCall : Obligations.ReturnGoesPastTheCall :=
  ⟨fun s h => ⟨_, exec_ret_full s h, rfl, rfl, rfl, sameExcept_setStack_sp.setPc_setStatus⟩, exec_ret_empty⟩

/-- Settles O28: a push sets one slot of the stack; with the stack full the answer is the fatal error
(`exec_call_full`). -/
theorem callPushesItsOwnAddress : Obligations.CallPushesItsOwnAddress := by
  refine ⟨fun nnn s h => ⟨_, exec_call_free nnn s h, fun k => ?_, rfl, addrOperand_toNat nnn, rfl,
    sameExcept_setStack.setPc_setStatus⟩, exec_call_full⟩
  simp [Vector.getElem_set, eq_comm]

/-- Settles O29: the call pushes its own address, so a return from its stack goes past it (`exec_ret_after_push`). -/
theorem callThenReturnComesBack : Obligations.CallThenReturnComesBack :=
  fun nnn s h => ⟨_, exec_call_free nnn s h,
    fun _ hsp hstack => exec_ret_after_push h (congrArg Fin.val hsp) hstack⟩

/-- Settles O24, by the cells of the cleared display. -/
theorem clearDisplayClearsEveryCell : Obligations.ClearDisplayClearsEveryCell :=
  fun s => ⟨_, exec_cls s, cell_clearDisplay, rfl, rfl, rfl, sameExcept_setDisplay.setPc_setStatus⟩

/-- Settles O26: the word reported is the encoding (`encode_sys`). -/
theorem sysReportsADecodeError : Obligations.SysReportsADecodeError := fun nnn s =>
  ⟨_, exec_sys nnn s, congrArg Status.decodeError (encode_sys nnn).symm, rfl,
    sameExcept_setPc.append sameExcept_setStatus⟩

/-- Settles O27: the target is `NNN`, zero-extended (`addrOperand_toNat`). -/
theorem jumpGoesToItsAddress : Obligations.JumpGoesToItsAddress := fun nnn s =>
  ⟨_, exec_jp nnn s, addrOperand_toNat nnn, rfl, sameExcept_setPc.append sameExcept_setStatus⟩

end Sys2Proof.Proofs
end

section
/-! SUPPORT. The conditional skips of the families 0x3, 0x4, 0x5 and 0x9: what an instruction that tests a condition and
ends by the skip policy answers. Then the statements of the family 41_skips. -/

namespace Sys2Proof.Machine

open Sys2Proof.Claims

/-- An instruction that only moves `pc`, by 4 where its test `b` of the condition `p` succeeds and by 2 otherwise, skips
exactly where `p` holds and changes nothing else (R90). -/
theorem exec_skips_iff {i : Instr} {s : State} {b : Bool} {p : Prop} [Decidable p] (hb : b = true ↔ p)
    (h : exec i s = .next ((s.setPc (if b then s.pc + 4 else s.pc + 2)).setStatus .ok)) :
    ∃ t, exec i s = .next t ∧ t.pc = (if p then s.pc + 4 else s.pc + 2) ∧ t.status = .ok ∧
      SameExcept [.pc, .status] s t :=
  ⟨_, h, if_congr hb rfl rfl, rfl, sameExcept_setPc.append sameExcept_setStatus⟩

end Sys2Proof.Machine

namespace Sys2Proof.Proofs

open Sys2Proof.Machine

/-- Settles O30: the tests of 3XNN and 4XNN decide equality with `NN` and its negation (`exec_skips_iff`). -/
theorem immediateSkipsCompare : Obligations.ImmediateSkipsCompare := fun x nn s =>
  ⟨exec_skips_iff beq_iff_eq (exec_seImm x nn s), exec_skips_iff bne_iff_ne (exec_sneImm x nn s)⟩

/-- Settles O31: the tests of 5XYn and 9XYn decide equality of the two registers and its negation, and neither reads `n`
(`exec_skips_iff`). -/
theorem registerSkipsCompare : Obligations.RegisterSkipsCompare := fun x y n s =>
  ⟨exec_skips_iff beq_iff_eq (exec_seReg x y n s), exec_skips_iff bne_iff_ne (exec_sneReg x y n s)⟩

end Sys2Proof.Proofs
end

section
/-! SUPPORT. The loads and the arithmetic of the families 0x6, 0x7 and 0x8: what an instruction that writes one
register, or one register and the flag, answers, and the numbers the results and flags stand for. Then the statements of
the family 42_load_alu. -/

namespace Sys2Proof.Machine

open Sys2Proof.Claims

section
variable {i : Instr} {s : State} {x : Reg} {r : Byte}

/-- An instruction that only writes `r` to `V[x]` and advances by 2 (R130 to R135). -/
theorem exec_writes_reg (h : exec i s = finish .advance2 (s.setReg x r)) : ∃ t, exec i s = .next t ∧
    (∀ k, t.reg k = if k = x then r else s.reg k) ∧ t.pc = s.pc + 2 ∧ t.status = .ok ∧
    SameExcept [.regs, .pc, .status] s t :=
  ⟨_, h, fun k => reg_setReg s x k r, rfl, rfl, sameExcept_setReg.setPc_setStatus⟩

/-- `exec_writes_reg`, with the result given bit by bit. -/
theorem exec_writes_reg_bits {b : Nat → Bool} (h : exec i s = finish .advance2 (s.setReg x r))
    (hr : ∀ j, r.getLsbD j = b j) : ∃ t, exec i s = .next t ∧
    (∀ k j, (t.reg k).getLsbD j = if k = x then b j else (s.reg k).getLsbD j) ∧
    t.pc = s.pc + 2 ∧ t.status = .ok ∧ SameExcept [.regs, .pc, .status] s t := by
  obtain ⟨t, ht, hreg, hrest⟩ := exec_writes_reg h
  exact ⟨t, ht, fun k j => by rw [hreg]; split; exacts [hr j, rfl], hrest⟩

/-- An instruction that writes the number `n` to `V[x]`, then the flag `m` to `VF`, and advances by 2: the flag wins
where `x` is 15 (R40). -/
theorem exec_writes_reg_then_flag {f : Bool} {n m : Nat} (h : exec i s = finishWithFlag x r f s)
    (hr : r.toNat = n) (hf : (flagByte f).toNat = m) : ∃ t, exec i s = .next t ∧
    (∀ k, (t.reg k).toNat = if k = 15 then m else if k = x then n else (s.reg k).toNat) ∧
    t.pc = s.pc + 2 ∧ t.status = .ok ∧ SameExcept [.regs, .pc, .status] s t := by
  subst hr hf
  refine ⟨_, h.trans (finishWithFlag_eq x r f s), fun k => ?_, rfl, rfl,
    ((sameExcept_setReg.append sameExcept_setFlag).mono (qs := [.regs]) (by simp)).setPc_setStatus⟩
  simp only [reg_setStatus, reg_setPc, reg_setFlag, reg_setReg, apply_ite BitVec.toNat]

end

/-! ### The numbers of results and flags -/

theorem byte_sub_toNat (a b : Byte) : (a - b).toNat = (a.toNat + 256 - b.toNat) % 256 := by
  have := b.isLt
  rw [BitVec.toNat_sub]
  omega

theorem byte_shiftLeft_one_toNat (a : Byte) : (a <<< 1).toNat = a.toNat * 2 % 256 := by
  rw [BitVec.toNat_shiftLeft, Nat.shiftLeft_eq]

theorem byte_ushiftRight_one_toNat (a : Byte) : (a >>> 1).toNat = a.toNat / 2 := by
  rw [BitVec.toNat_ushiftRight, Nat.shiftRight_eq_div_pow]

/-- The carry of an addition, as the number `VF` holds (R136). -/
theorem flagByte_carryOf_toNat (a b : Byte) :
    (flagByte (carryOf a b)).toNat = if a.toNat + b.toNat > 255 then 1 else 0 :=
  (flagByte_toNat _).trans (if_congr (carryOf_iff a b) rfl rfl)

/-- The not-borrow of `a - b`, as the number `VF` holds (R137, R139). -/
theorem flagByte_notBorrowOf_toNat (a b : Byte) :
    (flagByte (notBorrowOf a b)).toNat = if b.toNat > a.toNat then 0 else 1 := by
  rw [flagByte_toNat, if_congr ((notBorrowOf_iff a b).trans Nat.not_lt.symm) rfl rfl, ite_not]

/-- A bit of a byte, as the number `VF` holds (R138, R140). -/
theorem flagByte_getLsbD_toNat (a : Byte) (j : Nat) : (flagByte (a.getLsbD j)).toNat = a.toNat / 2 ^ j % 2 := by
  rw [flagByte_toNat, BitVec.getLsbD, ← Nat.toNat_testBit, Bool.toNat, Bool.cond_eq_ite]

theorem flagByte_lowBit_toNat (a : Byte) : (flagByte (lowBit a)).toNat = a.toNat % 2 :=
  (flagByte_getLsbD_toNat a 0).trans (by rw [pow_zero, Nat.div_one])

theorem flagByte_highBit_toNat (a : Byte) : (flagByte (highBit a)).toNat = a.toNat / 128 :=
  (flagByte_getLsbD_toNat a 7).trans (Nat.mod_eq_of_lt (by have := a.isLt; omega))

end Sys2Proof.Machine

namespace Sys2Proof.Proofs

open Sys2Proof.Machine

/-- Settles O35: each bit of the result is the operation on the bits of the operands (`exec_writes_reg_bits`). -/
theorem bitwiseOperationsWorkBitByBit : Obligations.BitwiseOperationsWorkBitByBit := fun x y s =>
  ⟨exec_writes_reg_bits (exec_orReg x y s) fun _ => BitVec.getLsbD_or,
    exec_writes_reg_bits (exec_andReg x y s) fun _ => BitVec.getLsbD_and,
    exec_writes_reg_bits (exec_xorReg x y s) fun _ => BitVec.getLsbD_xor⟩

/-- Settles O36: the carry is written after the sum (`exec_writes_reg_then_flag`). -/
theorem addPutsTheCarryInVF : Obligations.AddPutsTheCarryInVF := fun x y s =>
  exec_writes_reg_then_flag (exec_addReg x y s) (BitVec.toNat_add ..) (flagByte_carryOf_toNat ..)

/-- Settles O37: the not-borrow is written after the difference (`exec_writes_reg_then_flag`). -/
theorem subtractPutsNotBorrowInVF : Obligations.SubtractPutsNotBorrowInVF := fun x y s =>
  ⟨exec_writes_reg_then_flag (exec_subReg x y s) (byte_sub_toNat ..) (flagByte_notBorrowOf_toNat ..),
    exec_writes_reg_then_flag (exec_subnReg x y s) (byte_sub_toNat ..) (flagByte_notBorrowOf_toNat ..)⟩

/-- Settles O38: the bit shifted out is written after the shifted byte (`exec_writes_reg_then_flag`). -/
theorem shiftsMoveOneBitIntoVF : Obligations.ShiftsMoveOneBitIntoVF := fun x y s =>
  ⟨exec_writes_reg_then_flag (exec_shr x y s) (byte_ushiftRight_one_toNat _) (flagByte_lowBit_toNat _),
    exec_writes_reg_then_flag (exec_shl x y s) (byte_shiftLeft_one_toNat _) (flagByte_highBit_toNat _)⟩

/-- Settles O32, by `exec_writes_reg`. -/
theorem loadImmediateSetsTheRegister : Obligations.LoadImmediateSetsTheRegister := fun x nn s =>
  exec_writes_reg (exec_ldImm x nn s)

/-- Settles O33: one register is written (`exec_writes_reg`), with the sum of two bytes mod 256. -/
theorem addImmediateWrapsWithoutFlag : Obligations.AddImmediateWrapsWithoutFlag := by
  intro x nn s
  obtain ⟨t, ht, hreg, hrest⟩ := exec_writes_reg (exec_addImm x nn s)
  exact ⟨t, ht, fun k => by rw [hreg, apply_ite BitVec.toNat, BitVec.toNat_add], hrest⟩

/-- Settles O34, by `exec_writes_reg`. -/
theorem copyRegisterCopies : Obligations.CopyRegisterCopies := fun x y s =>
  exec_writes_reg (exec_ldReg x y s)

end Sys2Proof.Proofs
end

section
/-! SUPPORT. The families 0xA, 0xB and 0xC: the target of the indexed jump as a number, and what a random byte does once
it is drawn. Then the statements of the family 43_index_jump_random. -/

namespace Sys2Proof.Machine

/-- The sum of BNNN is not reduced: it fits 16 bits (R151, D23). -/
theorem indexedTarget_toNat (nnn : Addr) (b : Byte) : (indexedTarget nnn b).toNat = nnn.toNat + b.toNat := by
  rw [indexedTarget_eq_ofNat, BitVec.toNat_ofNat, Nat.mod_eq_of_lt (by omega)]

/-- CXNN with the byte given writes one register and advances by 2 (R152). -/
theorem rndWith_writes_masked (r : Byte) (x : Reg) (nn : Byte) (s : State) : ∃ t, rndWith r x nn s = .next t ∧
    (∀ k, t.reg k = if k = x then r &&& nn else s.reg k) ∧ t.pc = s.pc + 2 ∧ t.status = .ok ∧
    SameExcept [.regs, .pc, .status] s t :=
  ⟨_, rndWith_eq r x nn s, fun k => reg_setReg s x k _, rfl, rfl, sameExcept_setReg.setPc_setStatus⟩

end Sys2Proof.Machine

namespace Sys2Proof.Proofs

open Sys2Proof.Machine

/-- Settles O41: a draw raises the count and is then CXNN with its byte given (`rndWith_writes_masked`), which leaves
the count alone. -/
theorem randomByteIsMasked : Obligations.RandomByteIsMasked := by
  refine ⟨fun x nn s => ?_, rndWith_writes_masked⟩
  obtain ⟨t, ht, hreg, hpc, hok, hframe⟩ := rndWith_writes_masked (Config.randByte s.draws) x nn s.countDraw
  have hx : t.reg x = Config.randByte s.draws &&& nn := (hreg x).trans (if_pos rfl)
  have hdraws : t.draws = s.draws + 1 := hframe .draws (by decide)
  exact ⟨t, (exec_rnd x nn s).trans ht, hreg,
    fun j hj => by rw [hx, BitVec.getLsbD_and, hj, Bool.and_false], hdraws, hpc, hok,
    (sameExcept_countDraw.append hframe).mono (by simp)⟩

/-- Settles O39: the operand is zero-extended (`addrOperand_toNat`). -/
theorem loadIndexSetsTheIndex : Obligations.LoadIndexSetsTheIndex := fun nnn s =>
  ⟨_, exec_ldI nnn s, addrOperand_toNat nnn, rfl, rfl, sameExcept_setIndex.setPc_setStatus⟩

/-- Settles O40: the target is the whole sum (`indexedTarget_toNat`). -/
theorem indexedJumpAddsV0 : Obligations.IndexedJumpAddsV0 := fun nnn s =>
  ⟨_, exec_jpV0 nnn s, indexedTarget_toNat nnn (s.reg 0), rfl, sameExcept_setPc.append sameExcept_setStatus⟩

end Sys2Proof.Proofs
end

section
/-! SUPPORT. The draw of the family 0xD: where the 1 bits of the sprite read at `I` land, and that a draw reads the same
sprite in the state it leaves. Then the statements of the family 44_draw. -/

namespace Sys2Proof.Machine

open Sys2Proof.Claims

/-- Column `c` of a sprite row is bit `7 - c` of its byte (R160). -/
theorem spriteBit_iff (row : Byte) (c : Nat) : spriteBit row c = true ↔ row.toNat / 2 ^ (7 - c) % 2 = 1 := by
  rw [spriteBit, BitVec.getLsbD, Nat.testBit_eq_decide_div_mod_eq, decide_eq_true_iff]

section
variable {s t : State} {x y : Reg} {n : Nibble} {px : Fin 64} {py : Fin 32}

/-- The cells the rows read at `I` cover are those the statements speak of (R160, R161). -/
theorem rowsCover_readList_iff : rowsCover (s.reg x) (s.reg y) px py 0 (s.mem.readList s.i.toNat n.toNat) = true ↔
    spriteLands s x y n px py := by
  rw [rowsCover_iff, Memory.length_readList]
  refine exists_congr fun r => and_congr_right fun hr => exists_congr fun c => and_congr_right fun _ => ?_
  rw [Memory.getD_readList _ _ _ _ hr, spriteBit_iff, Fin.ext_iff, Fin.ext_iff, Nat.zero_add]
  rfl

/-- Where a sprite lands depends on memory, `I` and the two coordinate registers only. -/
theorem spriteLands_congr (hmem : ∀ a, t.byteAt a = s.byteAt a) (hi : t.i = s.i) (hx : t.reg x = s.reg x)
    (hy : t.reg y = s.reg y) : spriteLands t x y n px py ↔ spriteLands s x y n px py := by
  simp only [spriteLands, hmem, hi, hx, hy]

/-- A cell after the sprite of `s` was drawn: toggled where a 1 bit lands (R162). -/
theorem cell_drawSprite_readList :
    (drawSprite (s.reg x) (s.reg y) (s.mem.readList s.i.toNat n.toNat) s.disp).1.cell px py = true ↔
      ¬ (s.disp.cell px py = true ↔ spriteLands s x y n px py) := by
  rw [cell_drawSprite _ _ _ (by rw [Memory.length_readList]; omega), Bool.xor_iff_ne, ne_eq, Bool.eq_iff_iff,
    rowsCover_readList_iff]

/-- The collision of the sprite of `s`: a 1 bit lands on a set cell (R162). -/
theorem collision_drawSprite_readList :
    (drawSprite (s.reg x) (s.reg y) (s.mem.readList s.i.toNat n.toNat) s.disp).2 = true ↔
      ∃ px py, spriteLands s x y n px py ∧ s.disp.cell px py = true := by
  rw [collision_drawSprite _ _ _ (by rw [Memory.length_readList]; omega)]
  simp only [rowsCover_readList_iff]

end

/-- `VF` after the flag was written. -/
theorem reg_setFlag_flagReg (s : State) (b : Bool) : (s.setFlag b).reg 15 = flagByte b :=
  (reg_setFlag s 15 b).trans (if_pos rfl)

end Sys2Proof.Machine

namespace Sys2Proof.Proofs

open Sys2Proof.Machine Sys2Proof.Claims

/-- Settles O42: the rows are in memory (`exec_drw_inside`), and the sprite drawn and its collision are those of the
cells its 1 bits land on (`cell_drawSprite_readList`, `collision_drawSprite_readList`). -/
theorem drawTogglesTheCellsOfTheSprite : Obligations.DrawTogglesTheCellsOfTheSprite := by
  intro x y n s h
  refine ⟨_, exec_drw_inside x y n s h, fun px py => cell_drawSprite_readList, fun hc => ?_, fun hc => ?_,
    fun k hk => reg_setFlag_ne hk _ _, rfl, rfl, rfl,
    (sameExcept_setDisplay.append sameExcept_setFlag).setPc_setStatus⟩
  · exact (reg_setFlag_flagReg ..).trans (congrArg flagByte (collision_drawSprite_readList.mpr hc))
  · exact (reg_setFlag_flagReg ..).trans
      (congrArg flagByte (Bool.eq_false_iff.mpr (mt collision_drawSprite_readList.mp hc)))

/-- Settles O44: the first draw leaves memory, `I` and the coordinates alone, so the second toggles the same cells
(`spriteLands_congr`) and collides on those the first turned on, which were clear. -/
theorem drawingTwiceRestoresTheDisplay : Obligations.DrawingTwiceRestoresTheDisplay := by
  intro x y n s hx hy h
  obtain ⟨t, ht, htcell, -, -, htreg, -, -, -, hframe⟩ := drawTogglesTheCellsOfTheSprite x y n s h
  have hi : t.i = s.i := hframe .index (by decide)
  have hlands : ∀ px py, spriteLands t x y n px py ↔ spriteLands s x y n px py := fun px py =>
    spriteLands_congr (hframe .mem (by decide)) hi (htreg x hx) (htreg y hy)
  obtain ⟨u, hu, hucell, hset, hclear, -⟩ := drawTogglesTheCellsOfTheSprite x y n t (hi ▸ h)
  have hhit : (∃ px py, spriteLands t x y n px py ∧ t.disp.cell px py = true) ↔
      ∃ px py, spriteLands s x y n px py ∧ s.disp.cell px py = false := by
    refine exists_congr fun px => exists_congr fun py => ?_
    rw [hlands, htcell, ← Bool.not_eq_true]
    tauto
  refine ⟨t, u, ht, hu, Display.ext_cell fun px py => ?_, fun hc => hset (hhit.mpr hc),
    fun hc => hclear (mt hhit.mp hc)⟩
  rw [Bool.eq_iff_iff, hucell, htcell, hlands]
  tauto

/-- Settles O43: the range check fails (`exec_drw_outside`). -/
theorem drawOutOfRangeIsFatal : Obligations.DrawOutOfRangeIsFatal := exec_drw_outside

end Sys2Proof.Proofs
end

section
/-! SUPPORT. The key skips of the family 0xE: EXA1 by the test it skips on. Then the statement of the family 45_keys. -/

namespace Sys2Proof.Machine

/-- EXA1 skips where the key it names is not pressed (R171). -/
theorem exec_sknp_notKey (x : Reg) (s : State) (h : (s.reg x).toNat < 16) : exec (.sknp x) s =
    .next ((s.setPc (if !s.key[(s.reg x).toNat] then s.pc + 4 else s.pc + 2)).setStatus .ok) := by
  rw [exec_sknp_key x s h]
  cases s.key[(s.reg x).toNat] <;> rfl

end Sys2Proof.Machine

namespace Sys2Proof.Proofs

open Sys2Proof.Machine

/-- Settles O45: with a key named, EX9E tests that it is pressed and EXA1 that it is not (`exec_skips_iff`); with none
named, the check of the value fails (`exec_skp_noKey`, `exec_sknp_noKey`). -/
theorem keySkipsTestTheNamedKey : Obligations.KeySkipsTestTheNamedKey :=
  ⟨fun x s h => ⟨exec_skips_iff Iff.rfl (exec_skp_key x s h),
      exec_skips_iff (iff_of_eq (Bool.not_eq_true' _)) (exec_sknp_notKey x s h)⟩,
    fun x s h => ⟨exec_skp_noKey x s h, exec_sknp_noKey x s h⟩⟩

end Sys2Proof.Proofs
end

section
/-! SUPPORT. The family 0xF: the step that waits for a key, the numbers of the values FX0A, FX1E, FX29 and FX33 compute,
and the memory and registers after FX33, FX55 and FX65. Then the statements of the family 46_family_F. -/

namespace Sys2Proof.Machine

open Sys2Proof.Claims

/-! ### The key wait (R181, R215) -/

theorem keyIndex_toNat (k : Fin 16) : (keyIndex k).toNat = k.val :=
  Nat.mod_eq_of_lt (by omega)

theorem exec_ldVxK_waits (x : Reg) {s : State} (h : ∀ k : Fin 16, s.key[k] = false) :
    exec (.ldVxK x) s = .next (s.setStatus .waiting) :=
  exec_ldVxK_none x s ((lowestKey_eq_none s.key).mpr h)

/-- A step that waits latches the word, reports `Waiting` and ticks (R215). -/
theorem step_ldVxK_waits {x : Reg} {s : State} (h : ∀ k : Fin 16, s.key[k] = false)
    (hw : fetchWord s = .ok (encode (.ldVxK x))) :
    step s = .next (tick ((s.setOpcode (encode (.ldVxK x))).setStatus .waiting)) := by
  have hkeys : ∀ k : Fin 16, (s.setOpcode (encode (.ldVxK x))).key[k] = false := h
  rw [step_of_decoded hw (decodeWord_encode rfl), exec_ldVxK_waits x hkeys, endStep_next]
  rfl

theorem sameExcept_setOpcode {s : State} {w : Word} : SameExcept [.opcode] s (s.setOpcode w) := by
  rintro (_ | _) <;> simp [Part.same, State.byteAt]

theorem sameExcept_tick {s : State} : SameExcept [.beep, .delay, .sound] s (tick s) :=
  (sameExcept_setBeep.append sameExcept_setDelay).append sameExcept_setSound

/-! ### The values of `I` -/

/-- The 12-bit wrap of FX1E, as a number (R184). -/
theorem wrap12_toNat (n : Nat) : (wrap12 n).toNat = n % 0x1000 := by
  have hmask : (0x0FFF : Word).toNat = 2 ^ 12 - 1 := rfl
  rw [wrap12, BitVec.toNat_and, hmask, Nat.and_two_pow_sub_one_eq_mod, BitVec.toNat_ofNat]
  omega

/-- The overflow of FX1E, as the number `VF` holds (R184). -/
theorem flagByte_indexOverflow_toNat (n : Nat) : (flagByte (indexOverflow n)).toNat = if n > 0xFFF then 1 else 0 :=
  (flagByte_toNat _).trans (if_congr decide_eq_true_iff rfl rfl)

/-- The address of a glyph, as a number (R185). -/
theorem glyphAddress_toNat (b : Byte) : (glyphAddress b).toNat = b.toNat % 16 * 5 := by
  have hmask : (0x0F : Byte).toNat = 2 ^ 4 - 1 := rfl
  rw [glyphAddress, BitVec.toNat_ofNat, BitVec.toNat_and, hmask, Nat.and_two_pow_sub_one_eq_mod]
  simp only [Config.fontBase, Config.fontGlyph]
  omega

/-- The sum that FX55 and FX65 put in `I` is not reduced where the access was inside memory (R187, R188, D23). -/
theorem index_add_toNat {a : Word} {x : Reg} (h : a.toNat + x.val < 0x1000) :
    (a + BitVec.ofNat 16 (x.val + 1)).toNat = a.toNat + x.val + 1 := by
  rw [BitVec.toNat_add, BitVec.toNat_ofNat]
  omega

/-! ### Digits and registers in memory -/

theorem bcdDigits_map_toNat (b : Byte) :
    (bcdDigits b).map BitVec.toNat = [b.toNat / 100, b.toNat / 10 % 10, b.toNat % 10] := by
  have hb := b.isLt
  simp only [bcdDigits, List.map_cons, List.map_nil, BitVec.toNat_ofNat, List.cons.injEq, and_true]
  omega

/-- After the digits of a byte are stored from an address, digit `k` stands `k` above it (R186). -/
theorem read_digits (m : Memory) (a : Nat) (b : Byte) {k : Nat} (hk : k < 3) :
    ((m.writeList a (bcdDigits b)).read (a + k)).toNat = [b.toNat / 100, b.toNat / 10 % 10, b.toNat % 10].getD k 0 := by
  have hlen : (bcdDigits b).length = 3 := rfl
  rw [Memory.read_writeList, hlen, if_pos (by omega), Nat.add_sub_cancel_left, ← bcdDigits_map_toNat]
  exact (List.getD_map _ (0 : Byte) BitVec.toNat).symm

/-- The registers after the bytes from an address are loaded up to `x` (R188). -/
theorem reg_load (s : State) (a : Nat) (x k : Reg) :
    (s.setRegs (loadFrom s.v 0 (s.mem.readList a (x.val + 1)))).reg k =
      if k ≤ x then s.byteAt (a + k.val) else s.reg k := by
  have hrange : (0 ≤ k.val ∧ k.val < 0 + (x.val + 1)) ↔ k ≤ x := by rw [Fin.le_def]; omega
  rw [reg_setRegs, getElem_loadFrom, Memory.length_readList, if_congr hrange rfl rfl]
  split
  next h => exact Memory.getD_readList _ _ _ _ (Nat.lt_succ_of_le h)
  next => rfl

end Sys2Proof.Machine

namespace Sys2Proof.Proofs

open Sys2Proof.Machine

/-- Settles O46: the key given is the one FX0A finds (`lowestKey_eq_some`), and one register is written
(`exec_writes_reg`). -/
theorem keyWaitTakesTheLowestKey : Obligations.KeyWaitTakesTheLowestKey := by
  intro x s k hk hlow
  have hlowest : lowestKey s.key = some k := (lowestKey_eq_some s.key k).mpr ⟨hk, hlow⟩
  obtain ⟨t, ht, hreg, hrest⟩ := exec_writes_reg (exec_ldVxK_pressed x s k hlowest)
  exact ⟨t, ht, fun r => by rw [hreg, apply_ite BitVec.toNat, keyIndex_toNat], hrest⟩

/-- Settles O47: the instruction only reports `Waiting` (`exec_ldVxK_waits`); the step adds the word and the tick, and a
fetch reads neither (`fetchWord_congr`). -/
theorem keyWaitHoldsWhileNoKeyIsPressed : Obligations.KeyWaitHoldsWhileNoKeyIsPressed := by
  intro x s h
  refine ⟨⟨_, exec_ldVxK_waits x h, rfl, sameExcept_setStatus⟩, fun hw => ⟨_, step_ldVxK_waits h hw, ?_⟩⟩
  simp only [tick_status, tick_pc, tick_dt, tick_st, countDown_toNat, setStatus_status, setStatus_pc, setStatus_dt,
    setStatus_st, setOpcode_pc, setOpcode_dt, setOpcode_st, true_and]
  exact ⟨fetchWord_congr (by simp) (by simp),
    ((sameExcept_setOpcode.append sameExcept_setStatus).append sameExcept_tick).mono (by simp)⟩

/-- Settles O50: the flag is written after `I` and wins where `X` is 15; the wrap and the overflow are those of the
whole sum (`wrap12_toNat`, `flagByte_indexOverflow_toNat`). -/
theorem addToIndexWrapsAtTwelveBits : Obligations.AddToIndexWrapsAtTwelveBits := by
  intro x s
  refine ⟨_, exec_addI x s, wrap12_toNat _, ?_, fun k hk => reg_setFlag_ne hk _ _, rfl, rfl,
    (sameExcept_setIndex.append sameExcept_setFlag).setPc_setStatus⟩
  exact (congrArg BitVec.toNat (reg_setFlag_flagReg ..)).trans (flagByte_indexOverflow_toNat _)

/-- Settles O52: inside memory each digit stands at its place (`read_digits`) and the other bytes stay; the range check
fails otherwise (`exec_ldB_outside`). -/
theorem decimalDigitsAreStored : Obligations.DecimalDigitsAreStored :=
  ⟨fun x s h => ⟨_, exec_ldB_inside x s h,
      read_digits s.mem s.i.toNat (s.reg x) (k := 0) (by decide),
      read_digits s.mem s.i.toNat (s.reg x) (k := 1) (by decide),
      read_digits s.mem s.i.toNat (s.reg x) (k := 2) (by decide),
      fun _ ha => Memory.read_writeList_outside s.mem ha, rfl, rfl, sameExcept_setMem.setPc_setStatus⟩,
    fun x s h => exec_ldB_outside x s (Nat.lt_succ_of_le h)⟩

/-- Settles O53: inside memory each register stands at its place (`read_dump`) and the other bytes stay; the range check
fails otherwise (`exec_storeRegs_outside`). -/
theorem registersAreDumped : Obligations.RegistersAreDumped :=
  ⟨fun x s h => ⟨_, exec_storeRegs_inside x s h, fun _ hk => read_dump s.mem _ s hk,
      fun _ ha => Memory.read_writeList_outside s.mem (by rwa [length_regsUpTo]),
      index_add_toNat h, rfl, rfl, (sameExcept_setMem.append sameExcept_setIndex).setPc_setStatus⟩,
    exec_storeRegs_outside⟩

/-- Settles O54: inside memory the registers up to `X` take their bytes (`reg_load`); the range check fails otherwise
(`exec_loadRegs_outside`). -/
theorem registersAreLoaded : Obligations.RegistersAreLoaded :=
  ⟨fun x s h => ⟨_, exec_loadRegs_inside x s h, reg_load s s.i.toNat x, index_add_toNat h, rfl, rfl,
      (sameExcept_setRegs.append sameExcept_setIndex).setPc_setStatus⟩,
    exec_loadRegs_outside⟩

/-- Settles O55: the load reads at `I + k` the byte the dump stored there, which is `V[k]`. -/
theorem dumpThenLoadGivesTheRegistersBack : Obligations.DumpThenLoadGivesTheRegistersBack := by
  intro x s h
  obtain ⟨t, ht, hdumped, -⟩ := registersAreDumped.1 x s h
  refine ⟨t, ht, fun u hi hmem => ?_⟩
  obtain ⟨r, hr, hloaded, -⟩ := registersAreLoaded.1 x u (hi ▸ h)
  refine ⟨r, hr, fun k => ?_⟩
  rw [hloaded, hi, hmem]
  split
  next hk => exact hdumped k hk
  next => rfl

/-- Settles O48, by `exec_writes_reg`. -/
theorem readDelayTimer : Obligations.ReadDelayTimer := fun x s => exec_writes_reg (exec_ldVxDt x s)

/-- Settles O49: each of the two writes its timer only. -/
theorem writeTimers : Obligations.WriteTimers := fun x s =>
  ⟨⟨_, exec_ldDtVx x s, rfl, rfl, rfl, sameExcept_setDelay.setPc_setStatus⟩,
    ⟨_, exec_ldStVx x s, rfl, rfl, rfl, sameExcept_setSound.setPc_setStatus⟩⟩

/-- Settles O51: the glyph of a nibble stands five bytes above the one before it (`glyphAddress_toNat`). -/
theorem glyphAddressOfTheLowNibble : Obligations.GlyphAddressOfTheLowNibble := fun x s =>
  ⟨_, exec_ldF x s, glyphAddress_toNat (s.reg x), rfl, rfl, sameExcept_setIndex.setPc_setStatus⟩

end Sys2Proof.Proofs
end

section
/-! SUPPORT. The exceptions: an instruction whose check passes is not fatal, so a fatal step is a failed fetch or a failed
check, reported in the state before its instruction, and it repeats because neither the fetch nor a check reads the
report. Then the statements of the family 60_exceptions. -/

namespace Sys2Proof.Machine

open Sys2Proof.Claims

variable {s t : State} {w : Word} {i : Instr} {f : Fault}

/-! ### Every step answers a next state (R203, R226) -/

theorem exists_exec_eq_next (i : Instr) (s : State) : ∃ t, exec i s = .next t := by
  cases h : faultOf i s with
  | none => exact ⟨_, exec_of_faultOf_none h⟩
  | some f => exact ⟨_, exec_of_faultOf_some h⟩

/-- A word that is no instruction is reported, passed over, and the timers tick (R202, D11). -/
theorem step_of_rejected {e : Illegal} (hw : fetchWord s = .ok w) (he : decodeWord w = .error e) :
    step s = .next (tick (((s.setOpcode w).setPc (s.pc + 2)).setStatus (.decodeError w))) := by
  simp only [step, hw, he]
  exact endStep_next _

theorem step_of_exec {u : State} (hw : fetchWord s = .ok w) (hi : decodeWord w = .ok i)
    (hu : exec i (s.setOpcode w) = .next u) : step s = .next (if u.failed then u else tick u) := by
  rw [step_of_decoded hw hi, hu]
  exact endStep_next u

theorem exists_step_eq_next (s : State) : ∃ t, step s = .next t := by
  cases hw : fetchWord s with
  | error f => exact ⟨_, step_of_fetch_error hw⟩
  | ok w =>
    cases hi : decodeWord w with
    | error e => exact ⟨_, step_of_rejected hw hi⟩
    | ok i =>
      obtain ⟨u, hu⟩ := exists_exec_eq_next i (s.setOpcode w)
      exact ⟨_, step_of_exec hw hi hu⟩

theorem exists_decodeWord_eq_error (h : ∀ i, decodeWord w ≠ .ok i) : ∃ e, decodeWord w = .error e := by
  cases hd : decodeWord w with
  | error e => exact ⟨e, rfl⟩
  | ok i => exact absurd hd (h i)

/-! ### Fatal steps (R203, R209) -/

theorem completed_not_failed (i : Instr) (s : State) : (completed i s).failed = false := by
  cases i with
  | ldVxK x =>
    simp only [State.failed, completed, setStatus_status, statusOf]
    cases lowestKey s.key <;> rfl
  | _ => rfl

theorem step_of_faultOf_some (hw : fetchWord s = .ok w) (hi : decodeWord w = .ok i)
    (hf : faultOf i (s.setOpcode w) = some f) : step s = .next (fatalIn (s.setOpcode w) f) :=
  step_of_exec hw hi (exec_of_faultOf_some hf)

/-- A fatal step is a failed fetch, reported in the state before the step, or a failed check of the instruction fetched,
reported in the state with the word latched. -/
theorem step_cases_of_failed (h : step s = .next t) (ht : t.failed = true) :
    (∃ f, fetchWord s = .error f ∧ t = fatalIn s f) ∨
    (∃ w i f, fetchWord s = .ok w ∧ decodeWord w = .ok i ∧ faultOf i (s.setOpcode w) = some f ∧
      t = fatalIn (s.setOpcode w) f) := by
  rcases step_cases h with ⟨f, hf, rfl⟩ | ⟨w, e, -, -, rfl⟩ | ⟨w, i, u, hw, hi, hu, rfl⟩
  · exact .inl ⟨f, hf, rfl⟩
  · exact nomatch ht
  · rcases exec_cases hu with ⟨f, hf, rfl⟩ | ⟨-, rfl⟩
    · exact .inr ⟨w, i, f, hw, hi, hf, rfl⟩
    · have hok : ¬ (completed i (s.setOpcode w)).status.isFatal = true :=
        Bool.eq_false_iff.mp (completed_not_failed i _)
      rw [if_neg hok] at ht
      exact absurd ht hok

/-- The fetch does not read the report of a fatal error. -/
theorem fetchWord_fatalIn (s : State) (f : Fault) : fetchWord (fatalIn s f) = fetchWord s :=
  fetchWord_congr rfl rfl

/-- No check of an instruction reads the report of a fatal error. -/
theorem faultOf_fatalIn (i : Instr) (s : State) (f : Fault) : faultOf i (fatalIn s f) = faultOf i s := by
  cases i <;> rfl

/-! ### The self-jump (R226) and the host's writes (R218) -/

/-- At a jump to its own address the jump leaves `pc` where it is, so the step latches the word and ticks. -/
theorem step_selfJump {nnn : Addr} (hw : fetchWord s = .ok (encode (.jp nnn))) (hpc : s.pc = addrOperand nnn) :
    step s = .next (tick ((s.setOpcode (encode (.jp nnn))).setStatus .ok)) := by
  rw [step_of_exec hw (decodeWord_encode rfl) (exec_jp nnn _), ← hpc]
  rfl

theorem sameExcept_setKeys {k : Vector Bool 16} : SameExcept [.key] s (s.setKeys k) := by
  rintro (_ | _) <;> simp [Part.same, State.byteAt]

theorem sameExcept_lowerDrawFlag : SameExcept [.drawFlag] s s.lowerDrawFlag := by
  rintro (_ | _) <;> simp [Part.same, State.byteAt]

end Sys2Proof.Machine

namespace Sys2Proof.Proofs

open Sys2Proof.Machine Sys2Proof.Claims

/-- Settles O5: the fetch fails, or the word is rejected, or `exec` answers (`exists_step_eq_next`). -/
theorem everyStepAnswersANextState : Obligations.EveryStepAnswersANextState := exists_step_eq_next

/-- Settles O13: the step latches the word, moves `pc`, reports, and ticks (`step_of_rejected`). -/
theorem illegalWordIsReportedAndSkipped : Obligations.IllegalWordIsReportedAndSkipped := by
  intro s w hw hne
  obtain ⟨e, he⟩ := exists_decodeWord_eq_error hne
  exact ⟨_, step_of_rejected hw he, tick_pc _, tick_currentOpcode _, tick_status _, countDown_toNat _,
    countDown_toNat _, tick_beep_iff _,
    (sameExcept_setOpcode.setPc_setStatus.append sameExcept_tick).mono (by simp)⟩

/-- Settles O14, by the two kinds of fatal step (`step_cases_of_failed`). -/
theorem fatalStepIsRolledBackWhole : Obligations.FatalStepIsRolledBackWhole := by
  intro s t h ht
  rcases step_cases_of_failed h ht with ⟨f, hf, rfl⟩ | ⟨w, i, f, hw, -, -, rfl⟩
  · exact ⟨f, by rw [hf]; rfl⟩
  · exact ⟨f, by rw [hw]; rfl⟩

/-- Settles O15: the fetch and the check that failed read nothing the fatal step wrote, so they fail again
(`fetchWord_fatalIn`, `faultOf_fatalIn`), and what they report is already in the state. -/
theorem fatalErrorRepeats : Obligations.FatalErrorRepeats := by
  intro s t h ht
  rcases step_cases_of_failed h ht with ⟨f, hf, rfl⟩ | ⟨w, i, f, hw, hi, hf, rfl⟩
  · exact step_of_fetch_error ((fetchWord_fatalIn s f).trans hf)
  · have hw' : fetchWord (s.setOpcode w) = .ok w := (fetchWord_congr rfl rfl).trans hw
    exact step_of_faultOf_some ((fetchWord_fatalIn _ f).trans hw') hi ((faultOf_fatalIn i (s.setOpcode w) f).trans hf)

/-- Settles O16: the step of an instruction that is not fatal ends by the tick of the state the instruction left. -/
theorem completedStepTicksTheTimers : Obligations.CompletedStepTicksTheTimers := by
  intro s u w i hw hi hu hf
  have hstep : step s = .next (tick u) := by rw [step_of_exec hw hi hu, hf]; rfl
  exact ⟨_, hstep, countDown_toNat u.dt, countDown_toNat u.st, tick_beep_iff u, sameExcept_tick.mono (by simp)⟩

/-- Settles O57: the step latches the word and ticks (`step_selfJump`), and the next fetch reads neither. -/
theorem selfJumpChangesOnlyTimersAndOpcode : Obligations.SelfJumpChangesOnlyTimersAndOpcode := by
  rintro s ⟨nnn, hw, hpc⟩
  exact ⟨_, step_selfJump hw hpc, tick_status _,
    ⟨nnn, (fetchWord_congr (tick_pc _) (tick_mem _)).trans hw, (tick_pc _).trans hpc⟩,
    ((sameExcept_setOpcode.append sameExcept_setStatus).append sameExcept_tick).mono (by simp)⟩

/-- Settles O60, by the frame of each of the two updates. -/
theorem hostWritesKeysAndDrawFlagOnly : Obligations.HostWritesKeysAndDrawFlagOnly :=
  ⟨fun k s => ⟨setKeys_key s k, sameExcept_setKeys⟩, fun s => ⟨lowerDrawFlag_drawFlag s, sameExcept_lowerDrawFlag⟩⟩

end Sys2Proof.Proofs
end

section
/-! SUPPORT. What the host's reset and load leave: a reset differs from the reset state in the draw count only
(`sameExcept_hostReset`), a load answers by the length of its image (`hostLoad_of_le`, `hostLoad_of_lt`). Then the
statements of the family 70_reset_and_hazards. -/

namespace Sys2Proof.Machine

theorem sameExcept_hostReset (s : State) : SameExcept [.draws] State.reset (hostReset s) := fun p hp => by
  cases p with
  | draws => exact absurd (List.mem_singleton_self _) hp
  | mem | regs => exact fun _ => rfl
  | _ => rfl

/-- Byte `k` of an image stored from an address stands `k` above it (R243). -/
theorem Memory.read_writeList_inside (m : Memory) (a : Nat) {k : Nat} {bs : List Byte} (h : k < bs.length) :
    (m.writeList a bs).read (a + k) = bs.getD k 0 := by
  rw [Memory.read_writeList, if_pos (by omega), Nat.add_sub_cancel_left]

theorem hostLoad_of_le {bytes : List Byte} (s : State) (h : bytes.length ≤ 3584) :
    hostLoad bytes s = .ok (s.setMem (s.mem.writeList Config.progStart bytes)) := if_pos h

theorem hostLoad_of_lt {bytes : List Byte} (s : State) (h : 3584 < bytes.length) :
    hostLoad bytes s = .error .exceedsCapacity := if_neg (Nat.not_le_of_lt h)

theorem applyHostOp_load_of_ok {bytes : List Byte} {s t : State} (h : hostLoad bytes s = .ok t) :
    applyHostOp (.load bytes) s = t := by
  simp only [applyHostOp, h]

theorem applyHostOp_load_of_error {bytes : List Byte} {s : State} {e : LoadError} (h : hostLoad bytes s = .error e) :
    applyHostOp (.load bytes) s = s := by
  simp only [applyHostOp, h]

end Sys2Proof.Machine

namespace Sys2Proof.Proofs

open Sys2Proof.Machine

/-- Settles O59: an image that fits is stored from 0x200 on and nowhere else (`Memory.read_writeList_inside`,
`Memory.read_writeList_outside`); a longer one is rejected. -/
theorem hostLoadCopiesOrRejects : Obligations.HostLoadCopiesOrRejects := by
  refine ⟨fun bytes s h => ?_, fun bytes s h => ?_⟩
  · have hload := hostLoad_of_le s h
    exact ⟨_, hload, applyHostOp_load_of_ok hload, fun k hk => Memory.read_writeList_inside s.mem 0x200 hk,
      fun a ha => Memory.read_writeList_outside s.mem ha, sameExcept_setMem⟩
  · have hload := hostLoad_of_lt s h
    exact ⟨hload, applyHostOp_load_of_error hload⟩

/-- Settles O58: the reset writes every field of the spec, and keeps the draw count. -/
theorem hostResetForgetsTheState : Obligations.HostResetForgetsTheState := fun s =>
  ⟨sameExcept_hostReset s, rfl, rfl⟩

end Sys2Proof.Proofs
end
